-- ==== Sys2Proof/Word.lean ====
section
/-! DEFINITION. The data of the block: the byte (R9) and the Timed Symbol (R70). Nothing in this hardware is signed and
nothing is wider than a byte but the 32-bit symbol word of R77, which `Decode.lean` packs and reads. -/

namespace Sys2Proof

/-- A byte: 8 bits, unsigned, bit 0 the least significant (R9). -/
abbrev Byte := BitVec 8

/-- A Timed Symbol (R70): how long the carrier is active and how long it is inactive, both in peripheral clock ticks.
The durations are natural numbers; the width `DUR_W` is applied at the append port only (decision D3). -/
structure TimedSymbol where
  mark  : Nat
  space : Nat
  deriving DecidableEq, Repr

end Sys2Proof
end

