-- ==== Sys2Proof/Syntax.lean ====
section
/-! DEFINITION. The names the spec enumerates: the five symbol kinds (R70, R83), the twelve phases (R24, R82), and `Instr`,
one constructor for each row of spec/opcode_table.json (R81). -/

namespace Sys2Proof

/-- The five symbol kinds (R70); R84 (a): exactly five constructors. -/
inductive Kind where
  | zeroBit
  | oneBit
  | header
  | pause
  | endSymbol
  deriving DecidableEq, Repr

/-- The twelve values of `PH` (R24); R84 (b): exactly twelve constructors. -/
inductive Phase where
  | idle
  | hdr1
  | f1
  | pause
  | hdr2
  | f2
  | sum
  | crc
  | endPhase
  | send
  | wait
  | fault
  deriving DecidableEq, Repr

/-- The rows of spec/opcode_table.json (R81): five symbols, twelve phases, three operations. The operations carry the
operands R79 gives them (`data`, `start` inclusive, `stop` exclusive); indices are natural numbers, so R100's `0 <= start`
holds by the type. -/
inductive Instr where
  | zeroBit
  | oneBit
  | header
  | pause
  | endSymbol
  | phIdle
  | phHdr1
  | phF1
  | phPause
  | phHdr2
  | phF2
  | phSum
  | phCrc
  | phEnd
  | phSend
  | phWait
  | phFault
  | checksum (data : List Byte) (start stop : Nat)
  | encodeBits (data : List Byte) (start stop : Nat)
  | transmit
  deriving DecidableEq, Repr

/-- The table row of a symbol kind. -/
def Kind.instr : Kind → Instr
  | .zeroBit => .zeroBit
  | .oneBit => .oneBit
  | .header => .header
  | .pause => .pause
  | .endSymbol => .endSymbol

/-- The table row of a phase: the instruction the sequencer performs while `PH` holds that phase (R12, R23). -/
def Phase.instr : Phase → Instr
  | .idle => .phIdle
  | .hdr1 => .phHdr1
  | .f1 => .phF1
  | .pause => .phPause
  | .hdr2 => .phHdr2
  | .f2 => .phF2
  | .sum => .phSum
  | .crc => .phCrc
  | .endPhase => .phEnd
  | .send => .phSend
  | .wait => .phWait
  | .fault => .phFault

end Sys2Proof
end

