-- ==== Sys2Proof/Config.lean ====
section
/-! DEFINITION. The configuration (R7, R8): the record the step relation takes (R35), the parameters that are fixed numbers,
the platform's values, and the values the spec leaves open (opaque constants: nothing can be proved of what they are). -/

namespace Sys2Proof

/-- `SYMTAB` (R27): the read-only table of the five Timed Symbols, one named field for each kind. -/
structure SymTab where
  zeroBit   : TimedSymbol
  oneBit    : TimedSymbol
  header    : TimedSymbol
  pause     : TimedSymbol
  endSymbol : TimedSymbol
  deriving DecidableEq, Repr

/-- The configuration record of R7 as far as the block reads it: the payload length `N`, the payload store `PAYLOAD` and
`SYMTAB`. R8 and decision D17 let a model take `N` and `PAYLOAD` as arguments; this record is that argument. -/
structure Config where
  n       : Nat
  payload : List Byte
  symtab  : SymTab
  deriving DecidableEq, Repr

namespace Config

/-- `F1_LEN` (R7): the bytes of frame 1, a literal of the frame program. -/
def f1Len : Nat := 8

/-- `BODY_START` (R7): first index of the frame-2 body and of the checksum range. -/
def bodyStart : Nat := f1Len

/-- `BODY_END` (R7): exclusive end of the frame-2 body and of the checksum range, `N-1`. -/
def bodyEnd (c : Config) : Nat := c.n - 1

/-- `CRC_SLOT` (R7): index of the reserved trailing slot, `N-1`. -/
def crcSlot (c : Config) : Nat := c.n - 1

/-- `IDX_W` (R8): width of `BI`. -/
def idxW : Nat := 5

/-- `DUR_W` (R8): width of a duration on the append port. -/
def durW : Nat := 16

/-- `SEQ_CAPACITY` (R8, R66): the symbols the peripheral must accept in one cycle, `8N+4`. -/
def seqCapacity (c : Config) : Nat := 8 * c.n + 4

/-- The settings of the output peripheral (R163, R164): the platform's, set before the first cycle and never changed. -/
structure Peripheral where
  carrierHz   : Nat
  dutyPercent : Nat
  idleActive  : Bool
  clkDiv      : Nat
  deriving DecidableEq, Repr

/-- R164: carrier 38,000 Hz, duty 50%, idle level inactive, clock divider 80. The block neither sets nor reads them. -/
def peripheral : Peripheral := ⟨38000, 50, false, 80⟩

/-- `INTER_CYCLE_DELAY_MS` (R7, R182): measured by the cycle timer outside the block; no rule of the model reads it. -/
def interCycleDelayMs : Nat := 2000

/-- `BASE_CLK_HZ` (R8, decision D16): OPEN. A free value: no rule depends on it. -/
opaque baseClkHz : Nat

/-- R181: one tick in seconds, `CLK_DIV / BASE_CLK_HZ`; its value is open because `baseClkHz` is. -/
def tickSeconds : Rat := (peripheral.clkDiv : Rat) / (baseClkHz : Rat)

/-- What the wire `app_mark` carries while `app_valid` is low (R36, I15): any value, a fresh one at each clock edge. -/
opaque freeAppMark : Nat → BitVec 16

/-- What the wire `app_space` carries while `app_valid` is low (R36, I15): any value, a fresh one at each clock edge. -/
opaque freeAppSpace : Nat → BitVec 16

end Config

end Sys2Proof
end

