-- ==== Sys2Proof/Machine/Tables.lean ====
section
/-! DEFINITION. The contents of the two constant stores and the lookup in `SYMTAB`: the five symbols of R27 (R71 to R75) and
the 26 payload bytes of R26. -/

namespace Sys2Proof.Machine

/-- The five protocol constants of R27, R71 to R75 ("must never be recomputed or approximated"). -/
def refSymtab : SymTab where
  zeroBit := ⟨432, 432⟩
  oneBit := ⟨432, 1296⟩
  header := ⟨3468, 1767⟩
  pause := ⟨432, 10000⟩
  endSymbol := ⟨432, 0⟩

/-- The reference payload of R26: frame 1 (indices 0 to 7), the frame-2 body (8 to 24), the reserved slot (25). -/
def refPayload : List Byte :=
  [0x40, 0x04, 0x07, 0x20, 0x00, 0x00, 0x00, 0x60] ++
  [0x02, 0x20, 0xE0, 0x04, 0x00, 0x38, 0x20, 0x80] ++
  [0x31, 0x00, 0x00, 0x0E, 0xE0, 0x00, 0x00, 0x81] ++
  [0x00, 0x00]

/-- The reference build (R7): `N = 26` with the reference payload. -/
def refConfig : Config where
  n := 26
  payload := refPayload
  symtab := refSymtab

/-- `SYMTAB[kind]` (R51): the Timed Symbol of a kind; it reads, and never computes one entry from another. -/
def symbolOf (t : SymTab) : Kind → TimedSymbol
  | .zeroBit => t.zeroBit
  | .oneBit => t.oneBit
  | .header => t.header
  | .pause => t.pause
  | .endSymbol => t.endSymbol

/-- Symbol kind codes, 3 bits (R83): 0 ZeroBit, 1 OneBit, 2 Header, 3 Pause, 4 End. -/
def kindCode : Kind → BitVec 3
  | .zeroBit => 0
  | .oneBit => 1
  | .header => 2
  | .pause => 3
  | .endSymbol => 4

/-- The kind of a 3-bit code; the codes 5, 6 and 7 are reserved and name no kind (R84 (a)). -/
def kindOfCode (c : BitVec 3) : Option Kind :=
  [Kind.zeroBit, .oneBit, .header, .pause, .endSymbol].find? fun k => kindCode k == c

end Sys2Proof.Machine
end

