-- ==== Sys2Proof/WellFormed.lean ====
section
/-! DEFINITION. Well-formedness: of a configuration (R8) and of an instruction (the index ranges of R56, R100, R110).
Neither is a gate of the step: an ill-formed configuration takes the fail-fast transition of R123, an ill-formed call raises
PreconditionViolation (R155). -/

namespace Sys2Proof

/-- R8: `F1_LEN = 8`, `9 <= N <= 32` and every symbol constant as listed. `N <= len(PAYLOAD)` is R123's own clause (R7 makes
the two equal; the weaker clause is what the rules need). -/
abbrev Config.WellFormed (c : Config) : Prop :=
  Config.f1Len = 8 ∧ 9 ≤ c.n ∧ c.n ≤ 32 ∧ c.n ≤ c.payload.length ∧ c.symtab = Machine.refSymtab

/-- The precondition of the two range operations (R56): `0 <= start <= end <= len(data)`. -/
abbrev RangeWellFormed (data : List Byte) (start stop : Nat) : Prop :=
  start ≤ stop ∧ stop ≤ data.length

/-- A well-formed instruction: its index range, where it has one, is not malformed (R151, R154). -/
def Instr.wellFormed : Instr → Bool
  | .checksum data start stop => decide (RangeWellFormed data start stop)
  | .encodeBits data start stop => decide (RangeWellFormed data start stop)
  | .zeroBit | .oneBit | .header | .pause | .endSymbol => true
  | .phIdle | .phHdr1 | .phF1 | .phPause | .phHdr2 | .phF2 => true
  | .phSum | .phCrc | .phEnd | .phSend | .phWait | .phFault => true
  | .transmit => true

end Sys2Proof
end

