-- ==== Sys2Proof/Decode.lean ====
section
/-! DEFINITION. The encodings (R77, R81, R82) and their decoder, total and rejecting by name; after it the encoder. This
hardware has no instruction memory: a phase code stands in `PH`, a symbol word on the append port, and an operation has
operands but no bit pattern (R81), so its only written form is the call of R86. A symbol word is ONE 32-bit word,
so no byte order is involved (R55). -/

namespace Sys2Proof

/-- The three operations as calls (R86). -/
inductive Call where
  | checksum (data : List Byte) (start stop : Nat)
  | encodeBits (data : List Byte) (start stop : Nat)
  | transmit
  deriving DecidableEq, Repr

/-- What can be handed to the decoder: a 4-bit phase code (R82), a 32-bit symbol word (R77), a call (R86), or bits of a
width that no format of the table has. -/
inductive Code where
  | phase (c : BitVec 4)
  | symbol (w : BitVec 32)
  | call (op : Call)
  | other (nbits w : Nat)
  deriving DecidableEq, Repr

/-- Why a code is no instruction. -/
inductive DecodeError where
  /-- Phase codes 11 to 14 (R84 (b)). -/
  | reservedPhase (c : BitVec 4)
  /-- A pair outside the five of `SYMTAB` (R84 (c)). -/
  | notASymbolWord (w : BitVec 32)
  /-- A width no row of the table has, or bits beyond the row's. -/
  | noSuchFormat (nbits w : Nat)
  deriving DecidableEq, Repr

/-- The phase rows of spec/opcode_table.json: code and phase (R82). -/
def phaseRows : List (BitVec 4 × Phase) :=
  [(0, .idle), (1, .hdr1), (2, .f1), (3, .pause), (4, .hdr2), (5, .f2)] ++
  [(6, .sum), (7, .crc), (8, .endPhase), (9, .send), (10, .wait), (15, .fault)]

/-- The symbol rows of spec/opcode_table.json: 32-bit word and kind (R77). -/
def symbolRows : List (BitVec 32 × Kind) :=
  [(0x01B001B0, .zeroBit), (0x01B00510, .oneBit), (0x0D8C06E7, .header)] ++
  [(0x01B02710, .pause), (0x01B00000, .endSymbol)]

/-- The phase of a 4-bit code, none for the reserved codes (R82, R84 (b)). -/
def phaseOfCode (c : BitVec 4) : Option Phase :=
  (phaseRows.find? fun r => r.1 == c).map (·.2)

/-- The kind of a 32-bit symbol word, none for every other word (R77, R80, R84 (c)). -/
def kindOfWord (w : BitVec 32) : Option Kind :=
  (symbolRows.find? fun r => r.1 == w).map (·.2)

/-- The instruction of a call. -/
def instrOfCall : Call → Instr
  | .checksum data start stop => .checksum data start stop
  | .encodeBits data start stop => .encodeBits data start stop
  | .transmit => .transmit

/-- The decoder. -/
def decode : Code → Except DecodeError Instr
  | .phase c =>
    match phaseOfCode c with
    | some p => .ok p.instr
    | none => .error (.reservedPhase c)
  | .symbol w =>
    match kindOfWord w with
    | some k => .ok k.instr
    | none => .error (.notASymbolWord w)
  | .call op => .ok (instrOfCall op)
  | .other nbits w => .error (.noSuchFormat nbits w)

/-- Bits numbered as spec/opcode_table.json numbers them: a SYM32 row is one 32-bit word, a PHASE4 row four bits (one whole
byte with its upper half 0). -/
def codeOfTable (nbits w : Nat) : Code :=
  if nbits = 32 ∧ w < 2 ^ 32 then .symbol (BitVec.ofNat 32 w)
  else if (nbits = 4 ∨ nbits = 8) ∧ w < 16 then .phase (BitVec.ofNat 4 w)
  else .other nbits w

/-- The instruction the decoder reads from a table row's bits; none where it refuses. -/
def decodeTableWord (nbits w : Nat) : Option Instr :=
  match decode (codeOfTable nbits w) with
  | .ok i => some i
  | .error _ => none

/-- What the hardware makes of a 4-bit value found in `PH`: a reserved code is treated as `PH_FAULT` (R84 (b)). -/
def phaseInPH (c : BitVec 4) : Phase := (phaseOfCode c).getD .fault

/-- The 4-bit code of a phase (R82). -/
def phaseCode : Phase → BitVec 4
  | .idle => 0
  | .hdr1 => 1
  | .f1 => 2
  | .pause => 3
  | .hdr2 => 4
  | .f2 => 5
  | .sum => 6
  | .crc => 7
  | .endPhase => 8
  | .send => 9
  | .wait => 10
  | .fault => 15

/-- R77: the 32-bit word `{mark[15:0], space[15:0]}`, mark in bits 31 to 16, space in bits 15 to 0. -/
def symbolWord (t : TimedSymbol) : BitVec 32 :=
  BitVec.ofNat 16 t.mark ++ BitVec.ofNat 16 t.space

/-- The word of a symbol kind of the protocol (R77). -/
def kindWord (k : Kind) : BitVec 32 := symbolWord (Machine.symbolOf Machine.refSymtab k)

/-- The encoder: a symbol is its packed word (R77), a phase its code (R82), an operation its call (R86). -/
def encode : Instr → Code
  | .zeroBit => .symbol (kindWord .zeroBit)
  | .oneBit => .symbol (kindWord .oneBit)
  | .header => .symbol (kindWord .header)
  | .pause => .symbol (kindWord .pause)
  | .endSymbol => .symbol (kindWord .endSymbol)
  | .phIdle => .phase (phaseCode .idle)
  | .phHdr1 => .phase (phaseCode .hdr1)
  | .phF1 => .phase (phaseCode .f1)
  | .phPause => .phase (phaseCode .pause)
  | .phHdr2 => .phase (phaseCode .hdr2)
  | .phF2 => .phase (phaseCode .f2)
  | .phSum => .phase (phaseCode .sum)
  | .phCrc => .phase (phaseCode .crc)
  | .phEnd => .phase (phaseCode .endPhase)
  | .phSend => .phase (phaseCode .send)
  | .phWait => .phase (phaseCode .wait)
  | .phFault => .phase (phaseCode .fault)
  | .checksum data start stop => .call (.checksum data start stop)
  | .encodeBits data start stop => .call (.encodeBits data start stop)
  | .transmit => .call .transmit

end Sys2Proof
end

