-- ==== Sys2Proof/Machine/State.lean ====
section
/-! DEFINITION. The state of the block (R20), plain data, its reset value (R36, R170), and the reasons a step can stop. After
the spec's own elements stand four fields that are the MODEL'S OWN, each with its log entry: `inputs`, `issue`, `ret`, `clk`. -/

namespace Sys2Proof.Machine

/-- Cause codes of the 2-bit field `CAUSE` (R150): exactly the four 2-bit values. -/
inductive Cause where
  | noCause
  | preconditionViolation
  | configurationError
  | transmissionError
  deriving DecidableEq, Repr

/-- The alphabet of the event history (R29). -/
inductive Event where
  | append (mark space : Nat)
  | send
  | done (ok : Bool)
  deriving DecidableEq, Repr

/-- What the input ports of R32 carry at one rising edge of `clk`. -/
structure Sample where
  rst        : Bool
  cycleStart : Bool
  txDone     : Bool
  txFail     : Bool
  deriving DecidableEq, Repr

/-- All four input ports low. -/
def Sample.low : Sample := ⟨false, false, false, false⟩

/-- The two operations that take an index range (R56). -/
inductive RangeOp where
  | checksum
  | encodeBits
  deriving DecidableEq, Repr

/-- The value an operation returns to its caller (R100: one byte; R110: a sequence of Timed Symbols). -/
inductive Returned where
  | byte (b : Byte)
  | symbols (l : List TimedSymbol)
  deriving DecidableEq, Repr

/-- Why the machine stops with a fault. -/
inductive Fault where
  /-- `raise PreconditionViolation(op, start, end, len)` of R11: raised by CHECKSUM and ENCODE_BITS on a malformed range
  (R100, R110); R155 (a): no result, no output. It is the spec's own fault value. Safe. -/
  | preconditionViolation (op : RangeOp) (start stop len : Nat)
  /-- A read of a byte that does not exist (R50, R53, R56: never wrapped, never clamped, never a default byte); raised by the
  phases F1, F2, SUM, CRC when `BI` stands beyond their byte source, which no reachable state does (R37). Safe. -/
  | noSuchByte (index len : Nat)
  deriving DecidableEq, Repr

/-- Why the machine gives what it was handed no meaning. -/
inductive Refusal where
  /-- An instruction without a meaning; raised by exec's rejected arms only (there is none). Safe. -/
  | notModelled (mnemonic : String)
  /-- A reserved phase code handed to the decoder (R84 (b), I12 "refuse"); raised by the step. Safe. -/
  | reservedPhase (c : BitVec 4)
  /-- A 32-bit word that is no symbol (R84 (c)); raised by the step. Safe. -/
  | notASymbolWord (w : BitVec 32)
  /-- Bits of a width no row of the table has; raised by the step. Safe. -/
  | noSuchFormat (nbits w : Nat)
  deriving DecidableEq, Repr

/-- The complete state of R20, and four fields of the model's own. -/
structure State where
  /-- `PH`, 4 bits: the phase of the frame program; `ST` is read from it (R24, R25). -/
  ph     : Phase
  /-- `BI`, 5 bits: the byte index (R22). -/
  bi     : BitVec 5
  /-- `K`, 3 bits: the bit index within the byte (R22). -/
  k      : BitVec 3
  /-- `ACC`, 8 bits: the checksum accumulator (R21). -/
  acc    : Byte
  /-- `FAULT`, 1 bit (R30). -/
  fault  : Bool
  /-- `CAUSE`, 2 bits (R30, R150). -/
  cause  : Cause
  /-- The constant stores `PAYLOAD` (R26) and `SYMTAB` (R27) with the payload length `N` (R7). Nothing writes them. -/
  cfg    : Config
  /-- `SEQ`: the symbols appended in this cycle (R28). -/
  seq    : List TimedSymbol
  /-- `HIST`: the event history (R29). -/
  hist   : List Event
  /-- MODEL'S OWN (log entry 2): what the input ports will carry at the coming clock edges, the next edge first. -/
  inputs : List Sample
  /-- MODEL'S OWN (log entry 3): a table row handed in by a test bench, to run at the next edge instead of the phase in
  `PH`; `none` on the hardware. -/
  issue  : Option Code
  /-- MODEL'S OWN (log entry 4): what the last range operation returned to its caller. -/
  ret    : Option Returned
  /-- MODEL'S OWN (log entry 5): how many edges of `clk` have passed; it numbers the free values of the ports. -/
  clk    : Nat
  deriving DecidableEq, Repr

/-- Right after reset (R36, R170): `PH_IDLE`, counters and accumulator 0, no fault, `SEQ` and `HIST` empty; the stores hold
the reference build's constants (R26, R27). No input is scheduled, nothing is issued, nothing was returned. -/
def State.reset : State where
  ph := .idle
  bi := 0
  k := 0
  acc := 0
  fault := false
  cause := .noCause
  cfg := refConfig
  seq := []
  hist := []
  inputs := []
  issue := none
  ret := none
  clk := 0

/-- The three outcomes of a meaning. -/
abbrev Out := Host.Outcome State Fault Refusal

end Sys2Proof.Machine
end

