-- ==== Sys2Proof/Machine/Flags.lean ====
section
/-! DEFINITION. Flag computations. The block has no condition codes (R38): the addition of the checksum unit drops its carry,
and the only flag is `FAULT` with its cause field. -/

namespace Sys2Proof.Machine

/-- R101: unsigned 8-bit addition with wrap-around, computed exactly and narrowed to the low 8 bits; the carry is dropped
and no flag is written (R38). -/
def add8 (a b : Byte) : Byte := BitVec.ofNat 8 (a.toNat + b.toNat)

/-- The 2-bit code of a cause (R150). -/
def causeCode : Cause → BitVec 2
  | .noCause => 0
  | .preconditionViolation => 1
  | .configurationError => 2
  | .transmissionError => 3

/-- R30: `FAULT` and `CAUSE` are set together. -/
def State.setFault (s : State) (c : Cause) : State := { s with fault := true, cause := c }

/-- The states of D00's driver (R25). -/
inductive DriverState where
  | idle
  | sending
  deriving DecidableEq, Repr

/-- `ST` (R25): IDLE exactly in `PH_IDLE`, SENDING exactly in the phases 1 to 10, neither in `PH_FAULT`. -/
def State.st (s : State) : Option DriverState :=
  match s.ph with
  | .idle => some .idle
  | .fault => none
  | .hdr1 | .f1 | .pause | .hdr2 | .f2 | .sum | .crc | .endPhase | .send | .wait => some .sending

end Sys2Proof.Machine
end

