-- ==== Sys2Proof/Machine/Operands.lean ====
section
/-! DEFINITION. Operands: the bit of a byte (R9), the symbol of a bit (R76), the sub-sequence of a range (R10, R79), the byte
of the payload store (R50), and what the input ports say (R32, R162). -/

namespace Sys2Proof.Machine

/-- R9: `bit(b, k) = (b >> k) & 1`, bit 0 the least significant; R9 gives it for `k` up to 7 (log entry 18). -/
def bit (b : Byte) (k : Nat) : Bool := b.getLsbD k

/-- The encoder's output (R76, R114): the kind of a data bit. -/
def bitKind (b : Byte) (k : Nat) : Kind := if bit b k then .oneBit else .zeroBit

/-- `bitsym(b, k)` (R76). -/
def bitsym (t : SymTab) (b : Byte) (k : Nat) : TimedSymbol := symbolOf t (bitKind b k)

/-- `data[start..end)` (R10). -/
def slice (data : List Byte) (start stop : Nat) : List Byte := (data.take stop).drop start

/-- `MemRead(i, 1)` (R50): the byte at index `i` of the payload store, for `0 <= i < N`; no other index exists (R53). -/
def payloadRead (c : Config) (i : Nat) : Option Byte := if i < c.n then c.payload[i]? else none

/-- The one-byte source `[ACC]` of phase CRC (R87 (a), R131). -/
def oneByte (b : Byte) (i : Nat) : Option Byte := [b][i]?

/-- What the input ports carry at this clock edge; all low once nothing more is scheduled (log entry 2). -/
def State.sample (s : State) : Sample := s.inputs.headD Sample.low

/-- The peripheral's answer at this edge: `Done(true)` for `tx_done`, `Done(false)` for `tx_fail`, and `tx_done` wins if both
are raised (R135, R162). -/
def answerOf (x : Sample) : Option Bool :=
  if x.txDone then some true else if x.txFail then some false else none

/-- R123: the check that the ranges `[0,8)` and `[8,N-1)` are well formed: `F1_LEN <= N-1`, `N <= len(PAYLOAD)` and
`N-1 <= 2^IDX_W - 1` (for `N = 0` the natural number `N-1` is 0 and the first clause is false, as for -1). -/
def rangesOk (c : Config) : Bool :=
  decide (Config.f1Len ≤ c.n - 1) && decide (c.n ≤ c.payload.length) && decide (c.n - 1 ≤ 2 ^ Config.idxW - 1)

end Sys2Proof.Machine
end

