-- ==== Sys2Proof/Machine/Ops.lean ====
section
/-! DEFINITION. The named operations over the state that the meanings share: the append (R52), the other two events (R133,
R135), the move to a position (R23), the fail-fast stop and the reset that alone leaves it (R155, R167, R170), one encoder
micro-step (R111); the two range operations as functions (R100, R110) and the sequence the frame program builds (R121); and
the clock edge: fetching, and passing to the next edge. -/

namespace Sys2Proof.Machine

/-- `Append(SYMTAB[kind])` (R52), the only store of the block: `SEQ` and `HIST` grow by the one symbol. -/
def State.append (s : State) (k : Kind) : State :=
  { s with
    seq := s.seq ++ [symbolOf s.cfg.symtab k]
    hist := s.hist ++ [.append (symbolOf s.cfg.symtab k).mark (symbolOf s.cfg.symtab k).space] }

/-- `Send()` (R133): the event; the complete `SEQ` is what the peripheral transmits. -/
def State.sendOff (s : State) : State := { s with hist := s.hist ++ [.send] }

/-- `Done(ok)` (R135): the event; the sequence is discarded. -/
def State.complete (s : State) (ok : Bool) : State := { s with hist := s.hist ++ [.done ok], seq := [] }

/-- `PH <- p` (R11: the sequencer's move). -/
def State.goto (s : State) (p : Phase) : State := { s with ph := p }

/-- `BI <- b; K <- j`. -/
def State.index (s : State) (b : BitVec 5) (j : BitVec 3) : State := { s with bi := b, k := j }

/-- `ACC <- a; BI <- b`. -/
def State.sumTo (s : State) (a : Byte) (b : BitVec 5) : State := { s with acc := a, bi := b }

/-- An operation hands a value to its caller and writes nothing else (R100, R110). -/
def State.returning (s : State) (r : Returned) : State := { s with ret := some r }

/-- TAKING THE EXCEPTION: the fail-fast stop (R155 (b), R167). `FAULT` and `CAUSE` are set together, the sequencer goes to
`PH_FAULT`; nothing is saved, nothing is appended, no mode changes. -/
def State.failFast (s : State) (c : Cause) : State := (s.setFault c).goto .fault

/-- THE WAY BACK: there is no return operation; only reset leaves the stop (R167, R170). Every element takes its value of
R36; the constant stores are not affected, and the environment's schedule and the edge count, which are not the block's,
go on. -/
def State.cleared (s : State) : State :=
  { State.reset with cfg := s.cfg, inputs := s.inputs, clk := s.clk }

/-- IDLE to SENDING on a cycle start, or the fail-fast stop when the ranges are malformed (R123). -/
def State.startCycle (s : State) : State :=
  if rangesOk s.cfg then { s with seq := [], ph := .hdr1 } else s.failFast .preconditionViolation

/-- Advance `(BI, K)` by one bit (R111): `K` counts to 7 and returns to 0, and then `BI` is incremented. DESIGN CHOICE
(log entry 17): at `BI = 31`, where the spec only says that no well-formed configuration comes, the 5-bit register wraps to 0. -/
def State.advance (s : State) : State :=
  if s.k = 7 then s.index (s.bi + 1) 0 else s.index s.bi (s.k + 1)

/-- `ENC_STEP(src, end, exit)` (R111): at the end of the range the exit, which appends nothing; else one symbol. A byte the
source does not have stops the machine (R56). -/
def encStep (src : Nat → Option Byte) (len stop : Nat) (exit : State → State) (s : State) : Out :=
  if s.bi.toNat = stop then .next (exit s)
  else
    match src s.bi.toNat with
    | some b => .next (s.append (bitKind b s.k.toNat)).advance
    | none => .fault (.noSuchByte s.bi.toNat len)

/-- The loop of R100 without its check: the running sum of the bytes, 8 bits, from 0. -/
def sumBytes (l : List Byte) : Byte := l.foldl add8 0

/-- CHECKSUM, `compute_checksum(data, start, end)` (R100): the check first, then the sum of the range. -/
def computeChecksum (data : List Byte) (start stop : Nat) : Except Fault Byte :=
  if RangeWellFormed data start stop then .ok (sumBytes (slice data start stop))
  else .error (.preconditionViolation .checksum start stop data.length)

/-- The eight symbols of a byte, bit 0 first (R54, R110). -/
def encodeByte (t : SymTab) (b : Byte) : List TimedSymbol := (List.range 8).map (bitsym t b)

/-- The loop of R110 without its check: the bytes in order, each its eight symbols. -/
def encodeBytes (t : SymTab) (l : List Byte) : List TimedSymbol := l.flatMap (encodeByte t)

/-- ENCODE_BITS, `encode_bits(data, start, end)` (R110): the check first, then the symbols of the range. -/
def encodeRange (t : SymTab) (data : List Byte) (start stop : Nat) : Except Fault (List TimedSymbol) :=
  if RangeWellFormed data start stop then .ok (encodeBytes t (slice data start stop))
  else .error (.preconditionViolation .encodeBits start stop data.length)

/-- `crc(P)` (R121): the checksum of `P[8..N-1)`; of other payloads than R121's, see log entry 18. -/
def crcOf (c : Config) : Byte := sumBytes (slice c.payload Config.bodyStart c.bodyEnd)

/-- `FRAME(P)` (R121): what steps 1 to 8 of the frame program append; of other payloads than R121's, see log entry 18. -/
def frame (c : Config) : List TimedSymbol :=
  [c.symtab.header] ++
  encodeBytes c.symtab (slice c.payload 0 Config.f1Len) ++
  [c.symtab.pause] ++
  [c.symtab.header] ++
  encodeBytes c.symtab (slice c.payload Config.bodyStart c.bodyEnd) ++
  encodeBytes c.symtab [crcOf c] ++
  [c.symtab.endSymbol]

/-- What runs at this edge: the phase in `PH` (R23), unless a bench has issued a row (log entry 3). -/
def State.fetch (s : State) : Code := s.issue.getD (.phase (phaseCode s.ph))

/-- To the next clock edge: this edge's sample is gone whether or not a phase looked at it (R33, R160), and an issued row is
used up. -/
def State.tick (s : State) : State := { s with inputs := s.inputs.tail, issue := none, clk := s.clk + 1 }

/-- The outcome of the whole step, from that of the instruction. -/
def afterEdge : Out → Out
  | .next t => .next t.tick
  | .fault r => .fault r
  | .refused r => .refused r

/-- A code that is no instruction, as the step refuses it. -/
def refusalOf : DecodeError → Refusal
  | .reservedPhase c => .reservedPhase c
  | .notASymbolWord w => .notASymbolWord w
  | .noSuchFormat nbits w => .noSuchFormat nbits w

/-- The next edge's sample with `rst` low, so that the edge runs what is fetched. -/
def withoutReset : List Sample → List Sample
  | [] => []
  | x :: rest => { x with rst := false } :: rest

/-- Place a table row where the step looks: a phase row in `PH` (a reserved code there is `PH_FAULT`, R84 (b)), any other
row in the issue slot. -/
def State.place (s : State) : Code → State
  | .phase c => { s with ph := phaseInPH c, issue := none, inputs := withoutReset s.inputs }
  | .symbol w => { s with issue := some (.symbol w), inputs := withoutReset s.inputs }
  | .call op => { s with issue := some (.call op), inputs := withoutReset s.inputs }
  | .other nbits w => { s with issue := some (.other nbits w), inputs := withoutReset s.inputs }

end Sys2Proof.Machine
end

