-- ==== Sys2Proof/Machine/Phases.lean ====
section
/-! DEFINITION. The twelve phase rows: one micro-step each, at a clock edge with the inputs of `State.sample` (R123 to R136).
A phase that no event enables keeps every element of the state (R134, R136): that is its meaning, not a stop. -/

namespace Sys2Proof.Machine

/-- `PH_IDLE` (R123): on `cycle_start` the range check, then IDLE to SENDING or the fail-fast stop; else nothing. -/
def execPhIdle (s : State) : Out :=
  if s.sample.cycleStart then .next s.startCycle else .next s

/-- `PH_HDR1` (R124). -/
def execPhHdr1 (s : State) : Out := .next (((s.append .header).index 0 0).goto .f1)

/-- `PH_F1` (R125): `ENC_STEP(PAYLOAD, 8)`. -/
def execPhF1 (s : State) : Out :=
  encStep (payloadRead s.cfg) s.cfg.n Config.f1Len (fun s => s.goto .pause) s

/-- `PH_PAUSE` (R126). -/
def execPhPause (s : State) : Out := .next ((s.append .pause).goto .hdr2)

/-- `PH_HDR2` (R127). -/
def execPhHdr2 (s : State) : Out := .next (((s.append .header).index 8 0).goto .f2)

/-- `PH_F2` (R128): `ENC_STEP(PAYLOAD, N-1)`; the exit clears `ACC` and sets `BI` back to 8. -/
def execPhF2 (s : State) : Out :=
  encStep (payloadRead s.cfg) s.cfg.n s.cfg.bodyEnd (fun s => (s.sumTo 0 8).goto .sum) s

/-- `PH_SUM`: one byte added (R129), or at `BI = N-1` the exit, which leaves `crc` in `ACC` (R130). DESIGN CHOICE
(log entry 17): `BI + 1` at `BI = 31` wraps to 0. -/
def execPhSum (s : State) : Out :=
  if s.bi.toNat = s.cfg.bodyEnd then .next ((s.index 0 0).goto .crc)
  else
    match payloadRead s.cfg s.bi.toNat with
    | some b => .next (s.sumTo (add8 s.acc b) (s.bi + 1))
    | none => .fault (.noSuchByte s.bi.toNat s.cfg.n)

/-- `PH_CRC` (R131): `ENC_STEP([ACC], 1)`. -/
def execPhCrc (s : State) : Out :=
  encStep (oneByte s.acc) 1 1 (fun s => s.goto .endPhase) s

/-- `PH_END` (R132). -/
def execPhEnd (s : State) : Out := .next ((s.append .endSymbol).goto .send)

/-- `PH_SEND` (R133). -/
def execPhSend (s : State) : Out := .next (s.sendOff.goto .wait)

/-- `PH_WAIT`: the completion when the peripheral answers (R135), a failed send like a good one (R139); else it holds
(R134). -/
def execPhWait (s : State) : Out :=
  match answerOf s.sample with
  | some ok => .next ((s.complete ok).goto .idle)
  | none => .next s

/-- `PH_FAULT` (R136): no micro-step is enabled and every element keeps its value. -/
def execPhFault (s : State) : Out := .next s

/-- The micro-step of the phase in `PH`. -/
def microStep (s : State) : Out :=
  match s.ph with
  | .idle => execPhIdle s
  | .hdr1 => execPhHdr1 s
  | .f1 => execPhF1 s
  | .pause => execPhPause s
  | .hdr2 => execPhHdr2 s
  | .f2 => execPhF2 s
  | .sum => execPhSum s
  | .crc => execPhCrc s
  | .endPhase => execPhEnd s
  | .send => execPhSend s
  | .wait => execPhWait s
  | .fault => execPhFault s

end Sys2Proof.Machine
end

