-- ==== Sys2Proof/Machine/Operations.lean ====
section
/-! DEFINITION. The three operations. CHECKSUM and ENCODE_BITS are total functions on any operands (decision D23): they hand
their value to the caller and write no state of the block (R100, R110), or stop with the fault value (R155 (a)). TRANSMIT is
one send cycle composed of the phases' micro-steps (R137). -/

namespace Sys2Proof.Machine

/-- CHECKSUM (R100). -/
def execChecksum (data : List Byte) (start stop : Nat) (s : State) : Out :=
  match computeChecksum data start stop with
  | .ok b => .next (s.returning (.byte b))
  | .error r => .fault r

/-- ENCODE_BITS (R110). -/
def execEncodeBits (data : List Byte) (start stop : Nat) (s : State) : Out :=
  match encodeRange s.cfg.symtab data start stop with
  | .ok l => .next (s.returning (.symbols l))
  | .error r => .fault r

/-- The rest of a send cycle: micro-steps, a clock edge between two of them, until the sequencer is back in `PH_IDLE` or has
stopped in `PH_FAULT`. A reset on the way wins and ends it (R162, R172). When the fuel is used up the block stands in
`PH_WAIT`, where it hangs (R158). -/
def cycleFrom : Nat → State → Out
  | 0, s => .next s
  | fuel + 1, s =>
    if s.ph = .idle ∨ s.ph = .fault then .next s
    else if s.tick.sample.rst then .next s.tick.cleared
    else
      match microStep s.tick with
      | .next t => cycleFrom fuel t
      | .fault r => .fault r
      | .refused r => .refused r

/-- TRANSMIT (R137): in `PH_IDLE` it is the cycle start and the whole cycle after it; `9N` micro-steps follow the start up to
and including the `Send`, and each scheduled sample can hold the wait for one more. In any other phase a cycle start is
ignored (R160, R174). -/
def execTransmit (s : State) : Out :=
  if s.ph = .idle then cycleFrom (9 * s.cfg.n + 1 + s.inputs.length) s.startCycle else .next s

end Sys2Proof.Machine
end

