-- ==== Sys2Proof/Machine/Symbols.lean ====
section
/-! DEFINITION. The five symbol rows (R71 to R75): run as an instruction, a symbol is its `Append` (R52; log entry 6). It is
always possible ("It cannot fail and it cannot be refused") and moves nothing but `SEQ` and `HIST`. -/

namespace Sys2Proof.Machine

/-- ZeroBit (R72). -/
def execZeroBit (s : State) : Out := .next (s.append .zeroBit)

/-- OneBit (R73). -/
def execOneBit (s : State) : Out := .next (s.append .oneBit)

/-- Header (R71). -/
def execHeader (s : State) : Out := .next (s.append .header)

/-- Pause (R74). -/
def execPause (s : State) : Out := .next (s.append .pause)

/-- End (R75). -/
def execEndSymbol (s : State) : Out := .next (s.append .endSymbol)

end Sys2Proof.Machine
end

