-- ==== Sys2Proof/Machine/Dispatch.lean ====
section
/-! DEFINITION. One arm for each row of spec/opcode_table.json. -/

namespace Sys2Proof.Machine

def exec (i : Instr) (s : State) : Host.Outcome State Fault Refusal :=
  match i with
  | .zeroBit => Sys2Proof.Machine.execZeroBit s
  | .oneBit => Sys2Proof.Machine.execOneBit s
  | .header => Sys2Proof.Machine.execHeader s
  | .pause => Sys2Proof.Machine.execPause s
  | .endSymbol => Sys2Proof.Machine.execEndSymbol s
  | .phIdle => Sys2Proof.Machine.execPhIdle s
  | .phHdr1 => Sys2Proof.Machine.execPhHdr1 s
  | .phF1 => Sys2Proof.Machine.execPhF1 s
  | .phPause => Sys2Proof.Machine.execPhPause s
  | .phHdr2 => Sys2Proof.Machine.execPhHdr2 s
  | .phF2 => Sys2Proof.Machine.execPhF2 s
  | .phSum => Sys2Proof.Machine.execPhSum s
  | .phCrc => Sys2Proof.Machine.execPhCrc s
  | .phEnd => Sys2Proof.Machine.execPhEnd s
  | .phSend => Sys2Proof.Machine.execPhSend s
  | .phWait => Sys2Proof.Machine.execPhWait s
  | .phFault => Sys2Proof.Machine.execPhFault s
  | .checksum data start stop => Sys2Proof.Machine.execChecksum data start stop s
  | .encodeBits data start stop => Sys2Proof.Machine.execEncodeBits data start stop s
  | .transmit => Sys2Proof.Machine.execTransmit s

end Sys2Proof.Machine
end

