-- ==== Sys2Proof/Machine/Step.lean ====
section
/-! DEFINITION. One step is one rising edge of `clk` (R32; decision D1: one micro-step): reset wins over everything (R162);
else the phase in `PH`, or what a bench has issued, is decoded and run. -/

namespace Sys2Proof.Machine

/-- One clock edge. -/
def step (s : State) : Host.Outcome State Fault Refusal :=
  if s.sample.rst then .next s.cleared.tick
  else
    match decode s.fetch with
    | .ok i => afterEdge (exec i s)
    | .error e => .refused (refusalOf e)

/-- `s` with a table row where the next step looks for its instruction. -/
def State.withFetchWord (s : State) (nbits w : Nat) : State := s.place (codeOfTable nbits w)

end Sys2Proof.Machine
end

