-- ==== Sys2Proof/Machine/Ports.lean ====
section
/-! DEFINITION. The multiplexer (R122) and the output ports (R32), as functions of the state at a clock edge: they say which
symbol the phase in `PH` appends, independently of the micro-steps. What they show at an edge that runs a bench-issued row is
the model's choice (log entry 16). -/

namespace Sys2Proof.Machine

/-- The encoder's offer to the multiplexer (R114, R122): nothing at the end of the range, else the kind of bit `K` of the byte
at `BI`. -/
def encoderOffer (src : Nat → Option Byte) (stop : Nat) (s : State) : Option Kind :=
  if s.bi.toNat = stop then none else (src s.bi.toNat).map fun b => bitKind b s.k.toNat

/-- The multiplexer's table (R122): the kind that the phase in `PH` appends at this edge, none where nothing is appended. -/
def mux (s : State) : Option Kind :=
  match s.ph with
  | .hdr1 | .hdr2 => some .header
  | .f1 => encoderOffer (payloadRead s.cfg) Config.f1Len s
  | .f2 => encoderOffer (payloadRead s.cfg) s.cfg.bodyEnd s
  | .pause => some .pause
  | .crc => encoderOffer (oneByte s.acc) 1 s
  | .endPhase => some .endSymbol
  | .idle | .sum | .send | .wait | .fault => none

/-- The output ports (R32). -/
structure Ports where
  appValid : Bool
  appMark  : BitVec 16
  appSpace : BitVec 16
  send     : Bool
  busy     : Bool
  fault    : Bool
  cause    : BitVec 2
  deriving DecidableEq, Repr

/-- What the output ports carry during the micro-step of this edge (R32); a reset at the edge lets no append and no send
happen (R162). DESIGN CHOICE (log entry 16): at an edge that runs a row issued by a bench, which the spec does not have, the ports
still show the phase in `PH`, so an issued row's append is not shown and the phase's append is shown though it is not made.
While `app_valid` is low `app_mark` and `app_space` carry any value (R36, I15): a free value. -/
def ports (s : State) : Ports :=
  let appended := if s.sample.rst then none else mux s
  { appValid := appended.isSome
    appMark := (appended.map fun k => BitVec.ofNat 16 (symbolOf s.cfg.symtab k).mark).getD (Config.freeAppMark s.clk)
    appSpace := (appended.map fun k => BitVec.ofNat 16 (symbolOf s.cfg.symtab k).space).getD (Config.freeAppSpace s.clk)
    send := !s.sample.rst && decide (s.ph = .send)
    busy := decide (s.st = some .sending)
    fault := s.fault
    cause := causeCode s.cause }

end Sys2Proof.Machine
end

