-- ==== Sys2Proof/Machine/Readback.lean ====
section
/-! DEFINITION. Reading a stream back (R80), the listing letters (R78, R87 (e)), the waveform it asks
for (R70) and its on-air length in ticks (R180). The
block itself has no receive path (R5): these are a test bench's functions, and no meaning calls them. -/

namespace Sys2Proof.Machine

/-- R80: the kind of a symbol, from its pair; none for a pair the block never produces. -/
def kindOfSymbol (x : TimedSymbol) : Option Kind :=
  [Kind.header, .zeroBit, .oneBit, .pause, .endSymbol].find? fun k => symbolOf refSymtab k == x

/-- R80: the data bit of a symbol; none for a symbol that is no data symbol. -/
def bitOfSymbol (x : TimedSymbol) : Option Bool :=
  match kindOfSymbol x with
  | some .zeroBit => some false
  | some .oneBit => some true
  | some .header | some .pause | some .endSymbol | none => none

/-- `sum(dk * 2^k)` over bits given with bit 0 first. -/
def numberOfBits : List Bool → Nat
  | [] => 0
  | b :: rest => b.toNat + 2 * numberOfBits rest

/-- R80: the byte of eight consecutive data symbols. -/
def byteOfSymbols (l : List TimedSymbol) : Option Byte :=
  if l.length = 8 then (l.mapM bitOfSymbol).map fun bits => BitVec.ofNat 8 (numberOfBits bits) else none

/-- Listing letters: `H` Header, `0` ZeroBit, `1` OneBit, `P` Pause, `E` End. -/
def letter : Kind → Char
  | .header => 'H'
  | .zeroBit => '0'
  | .oneBit => '1'
  | .pause => 'P'
  | .endSymbol => 'E'

/-- The one-line listing of a stream (R87 (e)); a pair that is no symbol, which has no letter, is listed as `?` (log
entry 18). -/
def listing (l : List TimedSymbol) : List Char := l.map fun x => ((kindOfSymbol x).map letter).getD '?'

/-- R180: the on-air length of a symbol in ticks, mark plus space. -/
def ticksOf (x : TimedSymbol) : Nat := x.mark + x.space

/-- R180: the on-air length of a stream in ticks. -/
def airTicks (l : List TimedSymbol) : Nat := (l.map ticksOf).sum

/-- R55, R70: what a stream asks of the output peripheral, in time order: of each symbol the mark first (`true`, the carrier
active), then the space (`false`, the idle level), each with its length in ticks. -/
def waveform (l : List TimedSymbol) : List (Bool × Nat) := l.flatMap fun x => [(true, x.mark), (false, x.space)]

/-- R180: the ticks of a stream spent at one level, the marks (`true`) or the spaces (`false`). -/
def ticksAt (active : Bool) (l : List TimedSymbol) : Nat := (((waveform l).filter (·.1 == active)).map (·.2)).sum

end Sys2Proof.Machine
end

