-- ==== Sys2Proof/Safety.lean ====
section
/-! DEFINITION. What the claims call a good state and a good history: the table of R37 as an invariant, the language of R60
as a predicate on `HIST`, and the payload with another byte in its reserved slot (I13). -/

namespace Sys2Proof.Safety

open Sys2Proof.Machine

/-- `B = 8*(N-9)` (R37): the number of body symbols. -/
def bodyBits (c : Config) : Nat := 8 * (c.n - 9)

/-- The row of R37's table for the phase in `PH`. Phase `PH_FAULT` has no row: it is not reached (R156). -/
def Position (s : State) : Prop :=
  match s.ph with
  | .idle | .hdr1 => s.seq.length = 0
  | .f1 => s.bi.toNat ≤ 8 ∧ (s.bi.toNat = 8 → s.k = 0) ∧ s.seq.length = 1 + 8 * s.bi.toNat + s.k.toNat
  | .pause => s.bi = 8 ∧ s.k = 0 ∧ s.seq.length = 65
  | .hdr2 => s.bi = 8 ∧ s.k = 0 ∧ s.seq.length = 66
  | .f2 => 8 ≤ s.bi.toNat ∧ s.bi.toNat ≤ s.cfg.n - 1 ∧ (s.bi.toNat = s.cfg.n - 1 → s.k = 0) ∧
      s.seq.length = 67 + 8 * (s.bi.toNat - 8) + s.k.toNat
  | .sum => 8 ≤ s.bi.toNat ∧ s.bi.toNat ≤ s.cfg.n - 1 ∧ s.k = 0 ∧
      s.acc = sumBytes (slice s.cfg.payload 8 s.bi.toNat) ∧ s.seq.length = 67 + bodyBits s.cfg
  | .crc => s.bi.toNat ≤ 1 ∧ (s.bi.toNat = 1 → s.k = 0) ∧ s.acc = crcOf s.cfg ∧
      s.seq.length = 67 + bodyBits s.cfg + 8 * s.bi.toNat + s.k.toNat
  | .endPhase => s.bi = 1 ∧ s.k = 0 ∧ s.acc = crcOf s.cfg ∧ s.seq.length = 75 + bodyBits s.cfg
  | .send | .wait => s.bi = 1 ∧ s.k = 0 ∧ s.acc = crcOf s.cfg ∧ s.seq.length = 76 + bodyBits s.cfg
  | .fault => False

/-- The invariant of R37: in a well-formed configuration, with no row issued by a bench, the state is in its phase's row, no
fault is recorded, and `SEQ` is the beginning of `FRAME(PAYLOAD)`. -/
structure OnTrack (s : State) : Prop where
  config   : s.cfg.WellFormed
  noIssue  : s.issue = none
  noFault  : s.fault = false
  noCause  : s.cause = .noCause
  position : Position s
  onFrame  : s.seq <+: frame s.cfg

/-- The `Append` event of a symbol (R52). -/
def appendEvent (x : TimedSymbol) : Event := .append x.mark x.space

/-- The events of one complete send cycle (R137): `Append^(8N+4) Send Done`. -/
def cycleEvents (c : Config) (ok : Bool) : List Event := (frame c).map appendEvent ++ [.send, .done ok]

/-- R60: `HIST` is whole send cycles, then the appends of the current cycle, then its `Send` once it has been issued. -/
def HistoryOk (s : State) : Prop :=
  ∃ oks : List Bool,
    s.hist = oks.flatMap (cycleEvents s.cfg) ++ s.seq.map appendEvent ++ (if s.ph = .wait then [.send] else [])

/-- The configuration with another byte in the reserved slot `N-1` (I13). -/
def configWithSlot (c : Config) (b : Byte) : Config := { c with payload := c.payload.set c.crcSlot b }

/-- The state with another byte in the reserved slot (I13). -/
def withSlot (s : State) (b : Byte) : State := { s with cfg := configWithSlot s.cfg b }

/-- No reset is raised at the next `m` edges. -/
def NoResetFor (m : Nat) (s : State) : Prop := ∀ x ∈ s.inputs.take m, x.rst = false

end Sys2Proof.Safety
end

