-- ==== Sys2Proof/Certificates/Slice0/Obligations.lean ====
section
/-! DEFINITION. The statements for the provers. Each docstring names the rules of spec/ it rests on. A "hardware edge" is a
clock edge at which no reset is raised and no bench has issued a row (log entry 3). -/

open Sys2Proof Sys2Proof.Machine Sys2Proof.Safety

/-! ### Encodings -/

/-- R82, R77 (spec/opcode_table.json): the seventeen rows that have bits decode to the rows they stand for. -/
def Obligations.TableWordsDecodeToTheirRows : Prop :=
  decodeTableWord 32 0b00000001101100000000000110110000 = some .zeroBit ∧
  decodeTableWord 32 0b00000001101100000000010100010000 = some .oneBit ∧
  decodeTableWord 32 0b00001101100011000000011011100111 = some .header ∧
  decodeTableWord 32 0b00000001101100000010011100010000 = some .pause ∧
  decodeTableWord 32 0b00000001101100000000000000000000 = some .endSymbol ∧
  decodeTableWord 8 0 = some .phIdle ∧ decodeTableWord 8 1 = some .phHdr1 ∧
  decodeTableWord 8 2 = some .phF1 ∧ decodeTableWord 8 3 = some .phPause ∧
  decodeTableWord 8 4 = some .phHdr2 ∧ decodeTableWord 8 5 = some .phF2 ∧
  decodeTableWord 8 6 = some .phSum ∧ decodeTableWord 8 7 = some .phCrc ∧
  decodeTableWord 8 8 = some .phEnd ∧ decodeTableWord 8 9 = some .phSend ∧
  decodeTableWord 8 10 = some .phWait ∧ decodeTableWord 8 15 = some .phFault

/-- R81 to R84: decoding and encoding are inverse to each other, in both directions, for every instruction with every operand
and for every code: each code has one meaning and no bit of it is dropped. -/
def Obligations.DecodeAndEncodeAgree : Prop :=
  (∀ i : Instr, decode (encode i) = .ok i) ∧
  (∀ (c : Code) (i : Instr), decode c = .ok i → encode i = c) ∧
  (∀ (nbits w : Nat) (i : Instr), decodeTableWord nbits w = some i → codeOfTable nbits w = encode i)

/-- R84: the phase codes 11 to 14, the kind codes 5 to 7 and every word outside the five are refused by name; a step handed
such a word by a bench (log entry 3) refuses it; and a reserved code found in `PH` is treated as `PH_FAULT`: the machine stays there and appends
nothing. -/
def Obligations.ReservedCodesAreRefused : Prop :=
  (∀ c : BitVec 4, decode (.phase c) = .error (.reservedPhase c) ↔ 11 ≤ c.toNat ∧ c.toNat ≤ 14) ∧
  (∀ c : BitVec 3, kindOfCode c = none ↔ 5 ≤ c.toNat) ∧
  (∀ k : Kind, kindOfCode (kindCode k) = some k) ∧
  (∀ w : BitVec 32, (∀ k, w ≠ kindWord k) → decode (.symbol w) = .error (.notASymbolWord w)) ∧
  (∀ (s : State) (w : BitVec 32), s.sample.rst = false → s.issue = some (.symbol w) → (∀ k, w ≠ kindWord k) →
    step s = .refused (.notASymbolWord w)) ∧
  (∀ (s : State) (c : BitVec 4), 11 ≤ c.toNat → c.toNat ≤ 14 →
    ∃ t, step (s.withFetchWord 8 c.toNat) = .next t ∧ t.ph = .fault ∧ t.seq = s.seq ∧ t.hist = s.hist ∧
      t.bi = s.bi ∧ t.k = s.k ∧ t.acc = s.acc)

/-- R77: the word of a symbol holds the mark in bits 31 to 16 and the space in bits 15 to 0, the five words are those listed,
and bits 15 and 14 of either half are 0 in each of them; the ports carry the two halves while `app_valid` is high.
That they do so also at an edge that runs a bench-issued row is the model's choice (log entry 16). -/
def Obligations.SymbolWordHoldsMarkOverSpace : Prop :=
  (∀ x : TimedSymbol, (symbolWord x).extractLsb' 16 16 = BitVec.ofNat 16 x.mark ∧
    (symbolWord x).extractLsb' 0 16 = BitVec.ofNat 16 x.space) ∧
  kindWord .zeroBit = 0x01B001B0 ∧ kindWord .oneBit = 0x01B00510 ∧ kindWord .header = 0x0D8C06E7 ∧
  kindWord .pause = 0x01B02710 ∧ kindWord .endSymbol = 0x01B00000 ∧
  (∀ k : Kind, (kindWord k).getLsbD 31 = false ∧ (kindWord k).getLsbD 30 = false ∧
    (kindWord k).getLsbD 15 = false ∧ (kindWord k).getLsbD 14 = false) ∧
  (∀ (s : State) (k : Kind), s.sample.rst = false → mux s = some k →
    (ports s).appMark ++ (ports s).appSpace = symbolWord (symbolOf s.cfg.symtab k))

/-! ### The step and reset -/

/-- R12, R23, R33, R162: when no reset is raised and what the step fetches decodes to an instruction, the step is exec of that
instruction; after a next state the edge's sample is gone, an issued row is used up and the edge is counted (the model's
own, log entries 2, 3, 5), and a fault is
the step's own; no instruction is ever refused. With nothing issued what is fetched is the phase in `PH`, and it decodes to that phase's row. -/
def Obligations.StepRunsTheDecodedInstruction : Prop :=
  (∀ (s : State) (i : Instr), s.sample.rst = false → decode s.fetch = .ok i →
    (∀ t, exec i s = .next t →
      step s = .next { t with inputs := t.inputs.tail, issue := none, clk := t.clk + 1 }) ∧
    (∀ r, exec i s = .fault r → step s = .fault r)) ∧
  (∀ (s : State) (i : Instr) (r : Refusal), exec i s ≠ .refused r) ∧
  (∀ s : State, s.issue = none → decode s.fetch = .ok s.ph.instr) ∧
  (∀ (s : State) (c : Code), s.issue = some c → s.fetch = c)

/-- R36, R170, R162: what reset leaves. `State.reset` holds R36's values and the stores of R26 and R27, and its
outputs are R36's; a reset raised at an
edge wins over everything else there, in every state, and leaves R36's values with the stores unchanged; and at a hardware
edge nothing leaves `PH_FAULT`. That the schedule of inputs and the edge count go on is the model's own (log entries 2, 5). -/
def Obligations.ResetPutsEveryElementAtItsValue : Prop :=
  (State.reset.ph = .idle ∧ State.reset.bi = 0 ∧ State.reset.k = 0 ∧ State.reset.acc = 0 ∧
    State.reset.fault = false ∧ State.reset.cause = .noCause ∧ State.reset.seq = [] ∧ State.reset.hist = [] ∧
    State.reset.cfg.n = 26 ∧ State.reset.cfg.symtab = ⟨⟨432, 432⟩, ⟨432, 1296⟩, ⟨3468, 1767⟩, ⟨432, 10000⟩, ⟨432, 0⟩⟩ ∧
    State.reset.cfg.payload =
      [0x40, 0x04, 0x07, 0x20, 0x00, 0x00, 0x00, 0x60, 0x02, 0x20, 0xE0, 0x04, 0x00, 0x38, 0x20, 0x80] ++
      [0x31, 0x00, 0x00, 0x0E, 0xE0, 0x00, 0x00, 0x81, 0x00, 0x00]) ∧
  ((ports State.reset).appValid = false ∧ (ports State.reset).send = false ∧ (ports State.reset).busy = false ∧
    (ports State.reset).fault = false ∧ (ports State.reset).cause = 0) ∧
  (∀ s : State, s.sample.rst = true →
    step s = .next { State.reset with cfg := s.cfg, inputs := s.inputs.tail, clk := s.clk + 1 }) ∧
  (∀ s t : State, s.sample.rst = false → s.issue = none → s.ph = .fault → step s = .next t →
    t.ph = .fault ∧ t.fault = s.fault ∧ t.cause = s.cause ∧ t.seq = s.seq ∧ t.hist = s.hist)

/-! ### The symbol rows -/

/-- R76: a data bit selects its symbol; with the kind codes of R83 the kind code of the symbol equals the bit; the two data
symbols differ only in the space, 432 against 1296. -/
def Obligations.DataBitSelectsItsSymbol : Prop :=
  (∀ (t : SymTab) (b : Byte) (k : Nat), k ≤ 7 →
    (b.toNat / 2 ^ k % 2 = 1 → bitsym t b k = t.oneBit) ∧
    (b.toNat / 2 ^ k % 2 = 0 → bitsym t b k = t.zeroBit) ∧
    (kindCode (bitKind b k)).toNat = b.toNat / 2 ^ k % 2) ∧
  State.reset.cfg.symtab.zeroBit.mark = State.reset.cfg.symtab.oneBit.mark ∧
  State.reset.cfg.symtab.zeroBit.space = 432 ∧ State.reset.cfg.symtab.oneBit.space = 1296

/-- R71 to R75 with R52: each symbol row, run with the constants of R27, appends its pair to `SEQ` and its event to `HIST`,
in every state, and changes nothing else. That the row's meaning is this append is the model's reading (log entry 6). -/
def Obligations.SymbolRowsAppendTheirPair : Prop :=
  ∀ s : State, s.cfg.symtab = State.reset.cfg.symtab →
    exec .zeroBit s = .next { s with seq := s.seq ++ [⟨432, 432⟩], hist := s.hist ++ [.append 432 432] } ∧
    exec .oneBit s = .next { s with seq := s.seq ++ [⟨432, 1296⟩], hist := s.hist ++ [.append 432 1296] } ∧
    exec .header s = .next { s with seq := s.seq ++ [⟨3468, 1767⟩], hist := s.hist ++ [.append 3468 1767] } ∧
    exec .pause s = .next { s with seq := s.seq ++ [⟨432, 10000⟩], hist := s.hist ++ [.append 432 10000] } ∧
    exec .endSymbol s = .next { s with seq := s.seq ++ [⟨432, 0⟩], hist := s.hist ++ [.append 432 0] }

/-! ### The phases, one micro-step each -/

/-- R124, R126, R127: the three phases that append a constant symbol and the position they move to, in every state; with the
rules' worked examples (position 0 is the Header, position 65 the Pause, position 66 the second Header). -/
def Obligations.ConstantSymbolPhases : Prop :=
  (∀ s : State,
    exec .phHdr1 s = .next { s with
      seq := s.seq ++ [s.cfg.symtab.header]
      hist := s.hist ++ [.append s.cfg.symtab.header.mark s.cfg.symtab.header.space]
      bi := 0, k := 0, ph := .f1 } ∧
    exec .phPause s = .next { s with
      seq := s.seq ++ [s.cfg.symtab.pause]
      hist := s.hist ++ [.append s.cfg.symtab.pause.mark s.cfg.symtab.pause.space]
      ph := .hdr2 } ∧
    exec .phHdr2 s = .next { s with
      seq := s.seq ++ [s.cfg.symtab.header]
      hist := s.hist ++ [.append s.cfg.symtab.header.mark s.cfg.symtab.header.space]
      bi := 8, k := 0, ph := .f2 }) ∧
  (∀ s t : State, s.cfg.symtab = State.reset.cfg.symtab →
    (s.seq = [] → exec .phHdr1 s = .next t → t.seq = [⟨3468, 1767⟩]) ∧
    (s.seq.length = 65 → exec .phPause s = .next t → t.seq.length = 66 ∧ t.seq[65]? = some ⟨432, 10000⟩) ∧
    (s.seq.length = 66 → exec .phHdr2 s = .next t → t.seq.length = 67 ∧ t.seq[66]? = some ⟨3468, 1767⟩))

/-- R132, R133: `PH_END` appends End and `PH_SEND` issues the event `Send`, in every state; nothing else changes but `PH`. -/
def Obligations.EndAndSendPhases : Prop :=
  ∀ s : State,
    exec .phEnd s = .next { s with
      seq := s.seq ++ [s.cfg.symtab.endSymbol]
      hist := s.hist ++ [.append s.cfg.symtab.endSymbol.mark s.cfg.symtab.endSymbol.space]
      ph := .send } ∧
    exec .phSend s = .next { s with hist := s.hist ++ [.send], ph := .wait }

/-- R111, R125, R128, R131: the three encoder phases. At the end of the range the exit of the phase, which appends nothing;
else, where the source has the byte at `BI`, its bit `K` is appended as its symbol and `(BI, K)` advances by one bit; where it
has none the machine stops by name, the model's choice (log entry 12), as is that `BI + 1` wraps to 0 at 31 (log entry 17). The source is `PAYLOAD` in F1 and F2 and the one byte `ACC` in CRC. -/
def Obligations.EncoderPhasesAppendOneBit : Prop :=
  (∀ s : State,
    (s.bi.toNat = 8 → exec .phF1 s = .next { s with ph := .pause }) ∧
    (s.bi.toNat = s.cfg.n - 1 → exec .phF2 s = .next { s with acc := 0, bi := 8, ph := .sum }) ∧
    (s.bi.toNat = 1 → exec .phCrc s = .next { s with ph := .endPhase })) ∧
  (∀ (s : State) (b : Byte),
    let t : State := { s with
      seq := s.seq ++ [bitsym s.cfg.symtab b s.k.toNat]
      hist := s.hist ++ [.append (bitsym s.cfg.symtab b s.k.toNat).mark (bitsym s.cfg.symtab b s.k.toNat).space]
      bi := if s.k.toNat = 7 then s.bi + 1 else s.bi
      k := if s.k.toNat = 7 then 0 else s.k + 1 }
    (s.bi.toNat ≠ 8 → payloadRead s.cfg s.bi.toNat = some b → exec .phF1 s = .next t) ∧
    (s.bi.toNat ≠ s.cfg.n - 1 → payloadRead s.cfg s.bi.toNat = some b → exec .phF2 s = .next t) ∧
    (s.bi.toNat = 0 → b = s.acc → exec .phCrc s = .next t)) ∧
  (∀ s : State,
    (s.bi.toNat ≠ 8 → payloadRead s.cfg s.bi.toNat = none →
      exec .phF1 s = .fault (.noSuchByte s.bi.toNat s.cfg.n)) ∧
    (s.bi.toNat ≠ s.cfg.n - 1 → payloadRead s.cfg s.bi.toNat = none →
      exec .phF2 s = .fault (.noSuchByte s.bi.toNat s.cfg.n)) ∧
    (2 ≤ s.bi.toNat → exec .phCrc s = .fault (.noSuchByte s.bi.toNat 1)))

/-- R129, R130 (R101): a micro-step of `PH_SUM`: at `BI = N-1` the exit, which leaves `ACC` unchanged; else the byte at `BI` is
added modulo 256 and `BI` moves on; a byte that does not exist stops the machine by name,
and `BI + 1` wraps to 0 at 31: the model's choices (log entries 12 and 17). -/
def Obligations.SumPhaseAddsOneByte : Prop :=
  ∀ s : State,
    (s.bi.toNat = s.cfg.n - 1 → exec .phSum s = .next { s with bi := 0, k := 0, ph := .crc }) ∧
    (∀ b : Byte, s.bi.toNat ≠ s.cfg.n - 1 → payloadRead s.cfg s.bi.toNat = some b →
      exec .phSum s =
        .next { s with acc := BitVec.ofNat 8 ((s.acc.toNat + b.toNat) % 256), bi := s.bi + 1 }) ∧
    (s.bi.toNat ≠ s.cfg.n - 1 → payloadRead s.cfg s.bi.toNat = none →
      exec .phSum s = .fault (.noSuchByte s.bi.toNat s.cfg.n))

/-- R123, R155 (b): `PH_IDLE`. Without `cycle_start` nothing changes; on `cycle_start` the ranges are checked, and either the
cycle starts with an empty `SEQ`, or, before `SEQ` is touched, the fail-fast stop is taken: `FAULT` and `CAUSE` set together,
`PH_FAULT`, nothing appended. That an edge with no
micro-step enabled answers a next state is the model's choice (log entry 1). -/
def Obligations.IdlePhaseStartsOrFailsFast : Prop :=
  ∀ s : State,
    (s.sample.cycleStart = false → exec .phIdle s = .next s) ∧
    (s.sample.cycleStart = true → 8 ≤ s.cfg.n - 1 → s.cfg.n ≤ s.cfg.payload.length → s.cfg.n - 1 ≤ 31 →
      exec .phIdle s = .next { s with seq := [], ph := .hdr1 }) ∧
    (s.sample.cycleStart = true → ¬ (8 ≤ s.cfg.n - 1 ∧ s.cfg.n ≤ s.cfg.payload.length ∧ s.cfg.n - 1 ≤ 31) →
      exec .phIdle s = .next { s with fault := true, cause := .preconditionViolation, ph := .fault })

/-- R134, R135, R139, R162: `PH_WAIT` holds while the peripheral does not answer; on `tx_done` the cycle ends with
`Done(true)`, on `tx_fail` alone it ends in the same way with `Done(false)`, and `FAULT` is not set; `tx_done` wins if both
are raised. `ACC`, `BI` and `K` keep their values. That an edge with no
micro-step enabled answers a next state is the model's choice (log entry 1). -/
def Obligations.WaitPhaseHoldsOrCompletes : Prop :=
  ∀ s : State,
    (s.sample.txDone = false → s.sample.txFail = false → exec .phWait s = .next s) ∧
    (s.sample.txDone = true →
      exec .phWait s = .next { s with hist := s.hist ++ [.done true], seq := [], ph := .idle }) ∧
    (s.sample.txDone = false → s.sample.txFail = true →
      exec .phWait s = .next { s with hist := s.hist ++ [.done false], seq := [], ph := .idle })

/-- R136: in `PH_FAULT` no micro-step is enabled and every element keeps its value, whatever the inputs; the block is not
busy, and its ports append and send nothing. That the ports show the phase in `PH` also at an edge that runs a bench-issued
row is the model's choice (log entry 16). That an edge with no
micro-step enabled answers a next state is the model's choice (log entry 1). -/
def Obligations.FaultPhaseKeepsEverything : Prop :=
  ∀ s : State, exec .phFault s = .next s ∧
    (s.ph = .fault → (ports s).busy = false ∧ (ports s).appValid = false ∧ (ports s).send = false ∧
      (ports s).fault = s.fault)

/-- The frame of the phase and symbol rows (R20: who writes what; R30, R38): when such a row gives a next state, the registers
it is not said to write are unchanged. `ACC` is written by F2 and SUM only, `BI` and `K` by the phases R20 names, `FAULT` and
`CAUSE` by IDLE only, `SEQ` and `HIST` by the appending rows (and `SEQ` by IDLE and WAIT, `HIST` by SEND and WAIT), `PH` by no
symbol row; the stores, the schedule of inputs, the issue slot, the returned value and the edge count by none; every byte of
the payload reads as before. -/
def Obligations.PhaseAndSymbolRowsKeepTheRest : Prop :=
  ∀ (i : Instr) (s t : State), (∀ d a e, i ≠ .checksum d a e) → (∀ d a e, i ≠ .encodeBits d a e) → i ≠ .transmit →
    exec i s = .next t →
    (i ≠ .phF2 → i ≠ .phSum → t.acc = s.acc) ∧
    (i ≠ .phHdr1 → i ≠ .phF1 → i ≠ .phHdr2 → i ≠ .phF2 → i ≠ .phSum → i ≠ .phCrc → t.bi = s.bi ∧ t.k = s.k) ∧
    (i ≠ .phIdle → t.fault = s.fault ∧ t.cause = s.cause) ∧
    (i = .phSum ∨ i = .phSend ∨ i = .phFault → t.seq = s.seq) ∧
    (i = .phIdle ∨ i = .phSum ∨ i = .phFault → t.hist = s.hist) ∧
    (i ≠ .phIdle → i ≠ .phWait → s.seq <+: t.seq ∧ t.seq.length ≤ s.seq.length + 1) ∧
    (s.hist <+: t.hist ∧ t.hist.length ≤ s.hist.length + 1) ∧
    ((∃ k : Kind, i = k.instr) → t.ph = s.ph) ∧
    t.cfg = s.cfg ∧ t.inputs = s.inputs ∧ t.issue = s.issue ∧ t.ret = s.ret ∧ t.clk = s.clk ∧
    (∀ a, payloadRead t.cfg a = payloadRead s.cfg a)

/-- R26, R50, R51, R63: no instruction writes the constant stores, TRANSMIT (a whole cycle) included: after every next state
every byte of the payload and every entry of the symbol table reads as before. -/
def Obligations.NoInstructionWritesTheStores : Prop :=
  ∀ (i : Instr) (s t : State), exec i s = .next t →
    t.cfg = s.cfg ∧ (∀ a, payloadRead t.cfg a = payloadRead s.cfg a) ∧
    (∀ k, symbolOf t.cfg.symtab k = symbolOf s.cfg.symtab k)

/-! ### The operations -/

/-- R100: CHECKSUM on any operands. A range that keeps the precondition gives the sum of its bytes modulo 256 (0 for the empty
range, and no byte outside it matters), and no state is written but the value returned, the model's own field (log entry 4);
any other range raises PreconditionViolation with its operands and gives no result; that the raise ends the step in a fault is the
model's reading (log entry 12). -/
def Obligations.ChecksumReturnsTheSumModulo256 : Prop :=
  ∀ (data : List Byte) (start stop : Nat) (s : State),
    (start ≤ stop → stop ≤ data.length →
      exec (.checksum data start stop) s =
        .next { s with ret := some (.byte (BitVec.ofNat 8
          (((List.range (stop - start)).map fun j => (data.getD (start + j) 0).toNat).sum % 256))) }) ∧
    (¬ (start ≤ stop ∧ stop ≤ data.length) →
      exec (.checksum data start stop) s =
        .fault (.preconditionViolation .checksum start stop data.length))

/-- R110, R112 (symbol at a position): ENCODE_BITS on any operands. A range that keeps the precondition gives the sequence of
length `8 * (stop - start)` whose element `8*(i - start) + k` is the symbol of bit `k` of byte `i`, and no state is written but
the value returned, the model's own field (log entry 4); any other range raises PreconditionViolation with its operands and
gives no output, not even a partial one; that the raise ends the step in a fault is the model's reading (log entry 12). -/
def Obligations.EncodeBitsReturnsTheSymbolsOfTheRange : Prop :=
  ∀ (data : List Byte) (start stop : Nat) (s : State),
    (start ≤ stop → stop ≤ data.length →
      ∃ l : List TimedSymbol,
        exec (.encodeBits data start stop) s = .next { s with ret := some (.symbols l) } ∧
        l.length = 8 * (stop - start) ∧
        ∀ i k, start ≤ i → i < stop → k < 8 →
          l[8 * (i - start) + k]? =
            some (if (data.getD i 0).toNat / 2 ^ k % 2 = 1 then s.cfg.symtab.oneBit else s.cfg.symtab.zeroBit)) ∧
    (¬ (start ≤ stop ∧ stop ≤ data.length) →
      exec (.encodeBits data start stop) s =
        .fault (.preconditionViolation .encodeBits start stop data.length))

/-- R102: the laws of the checksum. (a) one byte of the range changed by +1 changes it by +1 modulo 256, a byte that wraps
included; (b) a permutation of the range's bytes does not change it; (c) it adds over concatenated ranges; (d) a byte of 0 may
be left out; (e) it is a function of the bytes of the range alone. -/
def Obligations.ChecksumLaws : Prop :=
  (∀ (data : List Byte) (start stop i : Nat) (b : Byte), start ≤ i → i < stop → stop ≤ data.length → data[i]? = some b →
    ∃ x, computeChecksum data start stop = .ok x ∧
      computeChecksum (data.set i (b + 1)) start stop = .ok (x + 1)) ∧
  (∀ (d e : List Byte) (start stop : Nat), stop ≤ d.length → stop ≤ e.length → start ≤ stop →
    List.Perm (slice d start stop) (slice e start stop) → computeChecksum d start stop = computeChecksum e start stop) ∧
  (∀ (data : List Byte) (start mid stop : Nat), start ≤ mid → mid ≤ stop → stop ≤ data.length →
    ∃ x y, computeChecksum data start mid = .ok x ∧ computeChecksum data mid stop = .ok y ∧
      computeChecksum data start stop = .ok (BitVec.ofNat 8 ((x.toNat + y.toNat) % 256))) ∧
  (∀ u v : List Byte,
    computeChecksum (u ++ [0] ++ v) 0 (u.length + 1 + v.length) = computeChecksum (u ++ v) 0 (u.length + v.length)) ∧
  (∀ (u v w u' w' : List Byte), u.length = u'.length →
    computeChecksum (u ++ v ++ w) u.length (u.length + v.length) =
      computeChecksum (u' ++ v ++ w') u'.length (u'.length + v.length)) ∧
  computeChecksum State.reset.cfg.payload 8 25 = computeChecksum State.reset.cfg.payload 8 26

/-- R112: the laws of the encoder: the length, the concatenation of ranges, injectivity (for a table whose two data
symbols differ, as R27's do), the symbol at a position; and, as it keeps nothing between calls, two calls in
two states with one table give one value. -/
def Obligations.EncoderLaws : Prop :=
  (∀ (t : SymTab) (data : List Byte) (start stop : Nat), start ≤ stop → stop ≤ data.length →
    ∃ l, encodeRange t data start stop = .ok l ∧ l.length = 8 * (stop - start) ∧
      ∀ i k b, start ≤ i → i < stop → k < 8 → data[i]? = some b → l[8 * (i - start) + k]? = some (bitsym t b k)) ∧
  (∀ (t : SymTab) (data : List Byte) (start mid stop : Nat), start ≤ mid → mid ≤ stop → stop ≤ data.length →
    ∃ x y, encodeRange t data start mid = .ok x ∧ encodeRange t data mid stop = .ok y ∧
      encodeRange t data start stop = .ok (x ++ y)) ∧
  (∀ (t : SymTab) (d e : List Byte) (x : List TimedSymbol) (a b a' b' : Nat), t.zeroBit ≠ t.oneBit →
    encodeRange t d a b = .ok x → encodeRange t e a' b' = .ok x → slice d a b = slice e a' b') ∧
  (∀ (data : List Byte) (a b : Nat) (s u s' u' : State), s.cfg.symtab = u.cfg.symtab →
    exec (.encodeBits data a b) s = .next s' → exec (.encodeBits data a b) u = .next u' → s'.ret = u'.ret)

/-- R80: reading a stream back. Each of the five pairs classifies as its kind and no other pair as any; the eight symbols of a
byte give the byte back; and in a whole `FRAME(PAYLOAD)` every byte of frame 1 and of the body, and the checksum byte, stand at
the positions of R58 and read back as themselves. -/
def Obligations.StreamReadsBack : Prop :=
  (∀ (x : TimedSymbol) (k : Kind), kindOfSymbol x = some k ↔ x = symbolOf State.reset.cfg.symtab k) ∧
  (∀ b : Byte, byteOfSymbols (encodeByte State.reset.cfg.symtab b) = some b) ∧
  (∀ c : Config, c.WellFormed →
    (∀ i, i < 8 → byteOfSymbols (((frame c).drop (1 + 8 * i)).take 8) = c.payload[i]?) ∧
    (∀ i, 8 ≤ i → i < c.n - 1 → byteOfSymbols (((frame c).drop (67 + 8 * (i - 8))).take 8) = c.payload[i]?) ∧
    byteOfSymbols (((frame c).drop (67 + bodyBits c)).take 8) = some (crcOf c))

/-! ### The whole transmission -/

/-- R121, R57, R58, R132, R141: the layout of `FRAME(PAYLOAD)` in every well-formed configuration: `8N+4` symbols; Header,
frame 1, Pause, Header, body, checksum byte, End at their positions; and End occurs nowhere else. In the reference build the checksum is 0x7E and the length
212. -/
def Obligations.FrameHasItsLayout : Prop :=
  crcOf State.reset.cfg = 0x7E ∧ (frame State.reset.cfg).length = 212 ∧
  ∀ c : Config, c.WellFormed →
    (frame c).length = 8 * c.n + 4 ∧
    (frame c)[0]? = some ⟨3468, 1767⟩ ∧
    (∀ i k b, i < 8 → k < 8 → payloadRead c i = some b → (frame c)[1 + 8 * i + k]? = some (bitsym c.symtab b k)) ∧
    (frame c)[65]? = some ⟨432, 10000⟩ ∧
    (frame c)[66]? = some ⟨3468, 1767⟩ ∧
    (∀ i k b, 8 ≤ i → i < c.n - 1 → k < 8 → payloadRead c i = some b →
      (frame c)[67 + 8 * (i - 8) + k]? = some (bitsym c.symtab b k)) ∧
    (∀ k, k < 8 → (frame c)[67 + 8 * (c.n - 9) + k]? = some (bitsym c.symtab (crcOf c) k)) ∧
    (∀ j, (frame c)[j]? = some ⟨432, 0⟩ ↔ j = 8 * c.n + 3)

/-- R180: the on-air length of a transmission in ticks, from its counts of ZeroBit and OneBit, of which there are `8N`; and
its parts, the ticks of the marks and those of the spaces. -/
def Obligations.FrameLastsItsTicks : Prop :=
  ∀ c : Config, c.WellFormed →
    (frame c).count ⟨432, 432⟩ + (frame c).count ⟨432, 1296⟩ = 8 * c.n ∧
    (frame c).count ⟨3468, 1767⟩ = 2 ∧ (frame c).count ⟨432, 10000⟩ = 1 ∧ (frame c).count ⟨432, 0⟩ = 1 ∧
    airTicks (frame c) = 21334 + 864 * (frame c).count ⟨432, 432⟩ + 1728 * (frame c).count ⟨432, 1296⟩ ∧
    airTicks (frame c) = ticksAt true (frame c) + ticksAt false (frame c) ∧
    ticksAt true (frame c) = 2 * 3468 + 432 * (8 * c.n + 2)

/-- R50, R57, I13: the reserved slot is never read. `FRAME(PAYLOAD)` and the checksum do not depend on it, and from a state of
R37 a step with another byte in the slot is the same step. -/
def Obligations.ReservedSlotIsNeverRead : Prop :=
  (∀ (c : Config) (b : Byte), c.WellFormed →
    frame (configWithSlot c b) = frame c ∧ crcOf (configWithSlot c b) = crcOf c) ∧
  (∀ (s t : State) (b : Byte), OnTrack s → step s = .next t → step (withSlot s b) = .next (withSlot t b))

/-- R111, R113, R125, R128, R131: each activation of the encoder, run as steps from its first micro-step, appends exactly the
symbols of its range in order and leaves the phase by its exit: `8 * (end - start)` appending micro-steps and one more.
What is left of the schedule and the edges counted are the model's own (log entries 2, 5). -/
def Obligations.EncoderPhasesRunTheirRange : Prop :=
  ∀ s : State, s.cfg.WellFormed → s.issue = none → s.k = 0 →
    (s.ph = .f1 → s.bi = 0 → NoResetFor 65 s →
      Host.Core.run Sys2Proof.core 65 s = .next { s with
        ph := .pause, bi := 8
        seq := s.seq ++ encodeBytes s.cfg.symtab (slice s.cfg.payload 0 8)
        hist := s.hist ++ (encodeBytes s.cfg.symtab (slice s.cfg.payload 0 8)).map appendEvent
        inputs := s.inputs.drop 65, clk := s.clk + 65 }) ∧
    (s.ph = .f2 → s.bi = 8 → NoResetFor (8 * (s.cfg.n - 9) + 1) s →
      Host.Core.run Sys2Proof.core (8 * (s.cfg.n - 9) + 1) s = .next { s with
        ph := .sum, bi := 8, acc := 0
        seq := s.seq ++ encodeBytes s.cfg.symtab (slice s.cfg.payload 8 (s.cfg.n - 1))
        hist := s.hist ++ (encodeBytes s.cfg.symtab (slice s.cfg.payload 8 (s.cfg.n - 1))).map appendEvent
        inputs := s.inputs.drop (8 * (s.cfg.n - 9) + 1), clk := s.clk + (8 * (s.cfg.n - 9) + 1) }) ∧
    (s.ph = .crc → s.bi = 0 → NoResetFor 9 s →
      Host.Core.run Sys2Proof.core 9 s = .next { s with
        ph := .endPhase, bi := 1
        seq := s.seq ++ encodeBytes s.cfg.symtab [s.acc]
        hist := s.hist ++ (encodeBytes s.cfg.symtab [s.acc]).map appendEvent
        inputs := s.inputs.drop 9, clk := s.clk + 9 })

/-- R103, R129, R130: the checksum phase, run as steps from its first micro-step, adds the `N-9` bytes of the body one by one
and leaves `ACC` at the value CHECKSUM returns for `(PAYLOAD, 8, N-1)`; it appends nothing. The schedule and the edge
count are the model's own (log entries 2, 5). -/
def Obligations.SumPhaseComputesTheChecksum : Prop :=
  ∀ s : State, s.cfg.WellFormed → s.issue = none → s.ph = .sum → s.bi = 8 → s.acc = 0 → NoResetFor (s.cfg.n - 8) s →
    ∃ x, computeChecksum s.cfg.payload 8 (s.cfg.n - 1) = .ok x ∧
      Host.Core.run Sys2Proof.core (s.cfg.n - 8) s = .next { s with
        ph := .crc, bi := 0, k := 0, acc := x
        inputs := s.inputs.drop (s.cfg.n - 8), clk := s.clk + (s.cfg.n - 8) }

/-- R137 (2), (3), (4): TRANSMIT is one send cycle. In a well-formed configuration, in `PH_IDLE`, when no reset comes and the
peripheral answers at an edge after the `9N+1` micro-steps up to the `Send` (however long it takes), TRANSMIT completes with
`HIST` grown by the appends of `FRAME(PAYLOAD)` in order, one `Send` and one `Done`, and with the state R137 gives. Answers
raised before the `Send` are ignored (R160). That it is one instruction composed of
micro-steps, what is left of the schedule and the edges counted are the model's own (log entries 2, 5, 7). -/
def Obligations.TransmitIsOneSendCycle : Prop :=
  ∀ (s : State) (build waits rest : List Sample) (a : Sample) (ok : Bool),
    s.cfg.WellFormed → s.ph = .idle → s.fault = false →
    s.inputs = build ++ waits ++ a :: rest → build.length = 9 * s.cfg.n + 1 →
    (∀ x ∈ build, x.rst = false) → (∀ x ∈ waits, x.rst = false ∧ answerOf x = none) →
    a.rst = false → answerOf a = some ok →
    exec .transmit s = .next { s with
      ph := .idle, bi := 1, k := 0, acc := crcOf s.cfg, seq := []
      hist := s.hist ++ (frame s.cfg).map appendEvent ++ [.send, .done ok]
      inputs := a :: rest, issue := none, clk := s.clk + (9 * s.cfg.n + 1) + waits.length }

/-- R160, R174, R123: TRANSMIT outside `PH_IDLE` is a cycle start that is ignored; in an ill-formed configuration it takes the
fail-fast stop and nothing is appended. That issuing TRANSMIT stands for the cycle start is the model's own (log entry 7). -/
def Obligations.TransmitElsewhereOrIllFormed : Prop :=
  (∀ s : State, s.ph ≠ .idle → exec .transmit s = .next s) ∧
  (∀ s : State, s.ph = .idle → ¬ (8 ≤ s.cfg.n - 1 ∧ s.cfg.n ≤ s.cfg.payload.length ∧ s.cfg.n - 1 ≤ 31) →
    exec .transmit s = .next { s with fault := true, cause := .preconditionViolation, ph := .fault })

/-- R137, D1: whatever comes in (resets, answers, none), what TRANSMIT does in one instruction is what some number of steps of
the machine do from the same state when its edge raises `cycle_start`. That TRANSMIT is one instruction, the schedule and the edge
count are the model's own (log entries 2, 5, 7). -/
def Obligations.TransmitIsTheRunOfItsMicroSteps : Prop :=
  ∀ s t : State, s.issue = none → s.ph = .idle → s.sample.rst = false → s.sample.cycleStart = true →
    exec .transmit s = .next t →
    ∃ m, 1 ≤ m ∧ Host.Core.run Sys2Proof.core m s =
      .next { t with inputs := t.inputs.tail, issue := none, clk := t.clk + 1 }

/-- R137, R183, R138: a send cycle as steps of the machine. From any `PH_IDLE` state of a well-formed configuration, a
`cycle_start` and `9N` more edges without reset bring it to `PH_WAIT` with `SEQ = FRAME(PAYLOAD)` and its appends and the `Send`
in `HIST`; and if the peripheral answers there, the completion micro-step, the `9N+2`nd when it answers at once, brings it back
to `PH_IDLE`. The schedule and the edge count are the model's own (log entries 2, 5). -/
def Obligations.SendCycleRunsToItsEnd : Prop :=
  ∀ (s : State) (start : Sample) (build rest : List Sample),
    s.cfg.WellFormed → s.issue = none → s.ph = .idle →
    s.inputs = start :: build ++ rest → build.length = 9 * s.cfg.n →
    start.cycleStart = true → start.rst = false → (∀ x ∈ build, x.rst = false) →
    Host.Core.run Sys2Proof.core (9 * s.cfg.n + 1) s = .next { s with
      ph := .wait, bi := 1, k := 0, acc := crcOf s.cfg, seq := frame s.cfg
      hist := s.hist ++ (frame s.cfg).map appendEvent ++ [.send]
      inputs := rest, clk := s.clk + (9 * s.cfg.n + 1) } ∧
    (∀ (waits more : List Sample) (a : Sample) (ok : Bool), rest = waits ++ a :: more →
      (∀ x ∈ waits, x.rst = false ∧ answerOf x = none) → a.rst = false → answerOf a = some ok →
      Host.Core.run Sys2Proof.core (9 * s.cfg.n + 2 + waits.length) s = .next { s with
        ph := .idle, bi := 1, k := 0, acc := crcOf s.cfg, seq := []
        hist := s.hist ++ (frame s.cfg).map appendEvent ++ [.send, .done ok]
        inputs := more, clk := s.clk + (9 * s.cfg.n + 2 + waits.length) })

/-- R34, I14: what `BI`, `K` and `ACC` hold between cycles is never read: a cycle from another value of the three is the same
cycle, whatever comes in. The cycle is taken as TRANSMIT, one instruction of the model's (log entry 7). -/
def Obligations.LeftoverRegistersAreNeverRead : Prop :=
  ∀ (s : State) (b : BitVec 5) (j : BitVec 3) (a : Byte), s.cfg.WellFormed → s.ph = .idle →
    exec .transmit { s with bi := b, k := j, acc := a } = exec .transmit s

/-! ### Rules of the whole machine -/

/-- R37: the table of R37 is kept by every step, whatever the inputs of the edge. -/
def Obligations.StepKeepsOnTrack : Prop :=
  ∀ s t : State, OnTrack s → step s = .next t → OnTrack t

/-- R36, R37: the state after reset is in the table, and so is its history (R60). -/
def Obligations.ResetIsOnTrack : Prop :=
  OnTrack State.reset ∧ HistoryOk State.reset

/-- R156, R184, R140: from a state of R37's table every step gives a next state: no fault and no refusal. In the phases HDR1 to
SEND that is R184's: a micro-step is always enabled. In `PH_IDLE` without `cycle_start` and in `PH_WAIT` without an answer the spec
has no micro-step enabled (R123, R134), and that the edge answers a next state, with every element kept, is the model's choice
(log entry 1). -/
def Obligations.OnTrackNeverStops : Prop :=
  ∀ s : State, OnTrack s → ∃ t, step s = .next t

/-- R60: on R37's states every step keeps the history in the language `(Append^(8N+4) Send Done)*`: whole cycles, then the
appends of the current one, then its `Send`; so `HIST` is always the beginning of a word of that language. -/
def Obligations.StepKeepsTheHistoryInItsLanguage : Prop :=
  ∀ s t : State, OnTrack s → HistoryOk s → step s = .next t →
    HistoryOk t ∧ ∃ oks : List Bool, t.hist <+: oks.flatMap (cycleEvents t.cfg)

/-- R156, R8: in every well-formed configuration the range check of R123 succeeds, and the three ranges the sequencer uses
keep the precondition of the two operations (R56). -/
def Obligations.WellFormedConfigurationPassesTheCheck : Prop :=
  ∀ (c : Config) (b : Byte), c.WellFormed →
    rangesOk c = true ∧ (∃ l, encodeRange c.symtab c.payload 0 8 = .ok l) ∧
    (∃ l, encodeRange c.symtab c.payload 8 (c.n - 1) = .ok l) ∧
    (∃ x, computeChecksum c.payload 8 (c.n - 1) = .ok x) ∧ (∃ l, encodeRange c.symtab [b] 0 1 = .ok l)

/-- R25, R138: the driver's two states. At a hardware edge `ST` changes only from IDLE to SENDING on a cycle start, from SENDING
to IDLE on the peripheral's answer in `PH_WAIT`, or from IDLE to the stop on a cycle start with malformed ranges. -/
def Obligations.DriverStateMovesOnlyOnItsEvents : Prop :=
  ∀ s t : State, s.sample.rst = false → s.issue = none → step s = .next t →
    t.st = s.st ∨
    (s.st = some .idle ∧ t.st = some .sending ∧ s.sample.cycleStart = true ∧ rangesOk s.cfg = true) ∨
    (s.st = some .sending ∧ t.st = some .idle ∧ s.ph = .wait ∧ answerOf s.sample ≠ none) ∨
    (s.st = some .idle ∧ t.st = none ∧ s.sample.cycleStart = true ∧ rangesOk s.cfg = false)

/-- R30, R155: `FAULT` and `CAUSE` change at a hardware edge only by the failing check of `PH_IDLE`, which sets both and appends
and sends nothing; a fault that is recorded is kept at every hardware edge. -/
def Obligations.FaultIsSetOnlyByTheRangeCheck : Prop :=
  ∀ s t : State, s.sample.rst = false → s.issue = none → step s = .next t →
    ((t.fault ≠ s.fault ∨ t.cause ≠ s.cause) →
      s.ph = .idle ∧ s.sample.cycleStart = true ∧ rangesOk s.cfg = false ∧
      t.fault = true ∧ t.cause = .preconditionViolation ∧ t.ph = .fault ∧ t.seq = s.seq ∧ t.hist = s.hist) ∧
    (s.fault = true → t.fault = true)

/-- R33, R159, R160, R162: each event is looked at in one phase only and is not remembered: at a hardware edge `cycle_start`
makes no difference outside `PH_IDLE`, nor `tx_done` and `tx_fail` outside `PH_WAIT`; and in `PH_WAIT` `tx_fail` makes none when
`tx_done` is raised. -/
def Obligations.EventsOutsideTheirPhaseAreIgnored : Prop :=
  ∀ (s : State) (x : Sample) (rest : List Sample) (u v w : Bool), s.issue = none → x.rst = false →
    (s.ph ≠ .idle →
      step { s with inputs := { x with cycleStart := u } :: rest } = step { s with inputs := x :: rest }) ∧
    (s.ph ≠ .wait →
      step { s with inputs := { x with txDone := v, txFail := w } :: rest } = step { s with inputs := x :: rest }) ∧
    (s.ph = .wait → x.txDone = true →
      step { s with inputs := { x with txFail := w } :: rest } = step { s with inputs := x :: rest })

/-- R139, R153: a failed send differs from a good one in nothing but the `ok` of its `Done`: same next state, no fault
recorded. -/
def Obligations.FailedSendDiffersOnlyInItsDone : Prop :=
  ∀ (s : State) (x : Sample) (rest : List Sample), s.issue = none → x.rst = false → s.ph = .wait →
    ∃ t : State,
      step { s with inputs := { x with txDone := true, txFail := false } :: rest } =
        .next { t with hist := s.hist ++ [.done true] } ∧
      step { s with inputs := { x with txDone := false, txFail := true } :: rest } =
        .next { t with hist := s.hist ++ [.done false] } ∧
      t.ph = .idle ∧ t.fault = s.fault ∧ t.seq = []

/-- R123, R134, R136, R152, R158: the waits. As long as no reset comes, the block stays as it is, for any number of edges: in
`PH_IDLE` without a cycle start, in `PH_WAIT` without an answer (the hang, which is no completed cycle), in `PH_FAULT` whatever
comes. The schedule and the edge count are the model's own (log entries 2, 5). That an edge with no
micro-step enabled answers a next state is the model's choice (log entry 1). -/
def Obligations.WaitsKeepEveryElement : Prop :=
  ∀ (m : Nat) (s : State), s.issue = none → NoResetFor m s →
    ((s.ph = .idle ∧ ∀ x ∈ s.inputs.take m, x.cycleStart = false) ∨
      (s.ph = .wait ∧ ∀ x ∈ s.inputs.take m, answerOf x = none) ∨ s.ph = .fault) →
    Host.Core.run Sys2Proof.core m s = .next { s with inputs := s.inputs.drop m, clk := s.clk + m }

/-- R32, R52, R122: the ports tell what the step does. At a hardware edge the step appends the kind the multiplexer selects and
nothing else; `app_valid`, `app_mark` and `app_space` show it, `send` is high in the micro-step that issues `Send`, `busy` is
high in the ten sending phases, and `fault` and `cause` show the registers. -/
def Obligations.PortsTellWhatTheStepDoes : Prop :=
  ∀ s t : State, s.sample.rst = false → s.issue = none → step s = .next t →
    ((ports s).appValid = true → ∃ k, mux s = some k ∧
      t.seq = s.seq ++ [symbolOf s.cfg.symtab k] ∧
      t.hist = s.hist ++ [.append (symbolOf s.cfg.symtab k).mark (symbolOf s.cfg.symtab k).space] ∧
      (ports s).appMark = BitVec.ofNat 16 (symbolOf s.cfg.symtab k).mark ∧
      (ports s).appSpace = BitVec.ofNat 16 (symbolOf s.cfg.symtab k).space) ∧
    ((ports s).appValid = false → (t.seq = s.seq ∨ t.seq = []) ∧ ∀ x y, t.hist ≠ s.hist ++ [.append x y]) ∧
    ((ports s).send = true ↔ t.hist = s.hist ++ [.send]) ∧
    ((ports s).busy = true ↔ 1 ≤ (phaseCode s.ph).toNat ∧ (phaseCode s.ph).toNat ≤ 10) ∧
    (ports s).fault = s.fault ∧ (ports s).cause = causeCode s.cause
end

