-- ==== Sys2Proof/Laws/State.lean ====
section
/-! SUPPORT. What each update of the state does to each field: one lemma per field per update. They are also the memory laws:
the only byte memory, `PAYLOAD`, stands in `cfg`, and every update keeps it. -/

namespace Sys2Proof.Machine

section
variable (s : State)

@[simp] theorem State.append_ph (j : Kind) : (s.append j).ph = s.ph := rfl
@[simp] theorem State.append_bi (j : Kind) : (s.append j).bi = s.bi := rfl
@[simp] theorem State.append_k (j : Kind) : (s.append j).k = s.k := rfl
@[simp] theorem State.append_acc (j : Kind) : (s.append j).acc = s.acc := rfl
@[simp] theorem State.append_fault (j : Kind) : (s.append j).fault = s.fault := rfl
@[simp] theorem State.append_cause (j : Kind) : (s.append j).cause = s.cause := rfl
@[simp] theorem State.append_cfg (j : Kind) : (s.append j).cfg = s.cfg := rfl
@[simp] theorem State.append_seq (j : Kind) : (s.append j).seq = s.seq ++ [symbolOf s.cfg.symtab j] := rfl
@[simp] theorem State.append_hist (j : Kind) : (s.append j).hist = s.hist ++ [.append (symbolOf s.cfg.symtab j).mark (symbolOf s.cfg.symtab j).space] := rfl
@[simp] theorem State.append_inputs (j : Kind) : (s.append j).inputs = s.inputs := rfl
@[simp] theorem State.append_issue (j : Kind) : (s.append j).issue = s.issue := rfl
@[simp] theorem State.append_ret (j : Kind) : (s.append j).ret = s.ret := rfl
@[simp] theorem State.append_clk (j : Kind) : (s.append j).clk = s.clk := rfl

@[simp] theorem State.sendOff_ph : (s.sendOff).ph = s.ph := rfl
@[simp] theorem State.sendOff_bi : (s.sendOff).bi = s.bi := rfl
@[simp] theorem State.sendOff_k : (s.sendOff).k = s.k := rfl
@[simp] theorem State.sendOff_acc : (s.sendOff).acc = s.acc := rfl
@[simp] theorem State.sendOff_fault : (s.sendOff).fault = s.fault := rfl
@[simp] theorem State.sendOff_cause : (s.sendOff).cause = s.cause := rfl
@[simp] theorem State.sendOff_cfg : (s.sendOff).cfg = s.cfg := rfl
@[simp] theorem State.sendOff_seq : (s.sendOff).seq = s.seq := rfl
@[simp] theorem State.sendOff_hist : (s.sendOff).hist = s.hist ++ [.send] := rfl
@[simp] theorem State.sendOff_inputs : (s.sendOff).inputs = s.inputs := rfl
@[simp] theorem State.sendOff_issue : (s.sendOff).issue = s.issue := rfl
@[simp] theorem State.sendOff_ret : (s.sendOff).ret = s.ret := rfl
@[simp] theorem State.sendOff_clk : (s.sendOff).clk = s.clk := rfl

@[simp] theorem State.complete_ph (ok : Bool) : (s.complete ok).ph = s.ph := rfl
@[simp] theorem State.complete_bi (ok : Bool) : (s.complete ok).bi = s.bi := rfl
@[simp] theorem State.complete_k (ok : Bool) : (s.complete ok).k = s.k := rfl
@[simp] theorem State.complete_acc (ok : Bool) : (s.complete ok).acc = s.acc := rfl
@[simp] theorem State.complete_fault (ok : Bool) : (s.complete ok).fault = s.fault := rfl
@[simp] theorem State.complete_cause (ok : Bool) : (s.complete ok).cause = s.cause := rfl
@[simp] theorem State.complete_cfg (ok : Bool) : (s.complete ok).cfg = s.cfg := rfl
@[simp] theorem State.complete_seq (ok : Bool) : (s.complete ok).seq = [] := rfl
@[simp] theorem State.complete_hist (ok : Bool) : (s.complete ok).hist = s.hist ++ [.done ok] := rfl
@[simp] theorem State.complete_inputs (ok : Bool) : (s.complete ok).inputs = s.inputs := rfl
@[simp] theorem State.complete_issue (ok : Bool) : (s.complete ok).issue = s.issue := rfl
@[simp] theorem State.complete_ret (ok : Bool) : (s.complete ok).ret = s.ret := rfl
@[simp] theorem State.complete_clk (ok : Bool) : (s.complete ok).clk = s.clk := rfl

@[simp] theorem State.goto_ph (p : Phase) : (s.goto p).ph = p := rfl
@[simp] theorem State.goto_bi (p : Phase) : (s.goto p).bi = s.bi := rfl
@[simp] theorem State.goto_k (p : Phase) : (s.goto p).k = s.k := rfl
@[simp] theorem State.goto_acc (p : Phase) : (s.goto p).acc = s.acc := rfl
@[simp] theorem State.goto_fault (p : Phase) : (s.goto p).fault = s.fault := rfl
@[simp] theorem State.goto_cause (p : Phase) : (s.goto p).cause = s.cause := rfl
@[simp] theorem State.goto_cfg (p : Phase) : (s.goto p).cfg = s.cfg := rfl
@[simp] theorem State.goto_seq (p : Phase) : (s.goto p).seq = s.seq := rfl
@[simp] theorem State.goto_hist (p : Phase) : (s.goto p).hist = s.hist := rfl
@[simp] theorem State.goto_inputs (p : Phase) : (s.goto p).inputs = s.inputs := rfl
@[simp] theorem State.goto_issue (p : Phase) : (s.goto p).issue = s.issue := rfl
@[simp] theorem State.goto_ret (p : Phase) : (s.goto p).ret = s.ret := rfl
@[simp] theorem State.goto_clk (p : Phase) : (s.goto p).clk = s.clk := rfl

@[simp] theorem State.index_ph (b : BitVec 5) (j : BitVec 3) : (s.index b j).ph = s.ph := rfl
@[simp] theorem State.index_bi (b : BitVec 5) (j : BitVec 3) : (s.index b j).bi = b := rfl
@[simp] theorem State.index_k (b : BitVec 5) (j : BitVec 3) : (s.index b j).k = j := rfl
@[simp] theorem State.index_acc (b : BitVec 5) (j : BitVec 3) : (s.index b j).acc = s.acc := rfl
@[simp] theorem State.index_fault (b : BitVec 5) (j : BitVec 3) : (s.index b j).fault = s.fault := rfl
@[simp] theorem State.index_cause (b : BitVec 5) (j : BitVec 3) : (s.index b j).cause = s.cause := rfl
@[simp] theorem State.index_cfg (b : BitVec 5) (j : BitVec 3) : (s.index b j).cfg = s.cfg := rfl
@[simp] theorem State.index_seq (b : BitVec 5) (j : BitVec 3) : (s.index b j).seq = s.seq := rfl
@[simp] theorem State.index_hist (b : BitVec 5) (j : BitVec 3) : (s.index b j).hist = s.hist := rfl
@[simp] theorem State.index_inputs (b : BitVec 5) (j : BitVec 3) : (s.index b j).inputs = s.inputs := rfl
@[simp] theorem State.index_issue (b : BitVec 5) (j : BitVec 3) : (s.index b j).issue = s.issue := rfl
@[simp] theorem State.index_ret (b : BitVec 5) (j : BitVec 3) : (s.index b j).ret = s.ret := rfl
@[simp] theorem State.index_clk (b : BitVec 5) (j : BitVec 3) : (s.index b j).clk = s.clk := rfl

@[simp] theorem State.sumTo_ph (a : Byte) (b : BitVec 5) : (s.sumTo a b).ph = s.ph := rfl
@[simp] theorem State.sumTo_bi (a : Byte) (b : BitVec 5) : (s.sumTo a b).bi = b := rfl
@[simp] theorem State.sumTo_k (a : Byte) (b : BitVec 5) : (s.sumTo a b).k = s.k := rfl
@[simp] theorem State.sumTo_acc (a : Byte) (b : BitVec 5) : (s.sumTo a b).acc = a := rfl
@[simp] theorem State.sumTo_fault (a : Byte) (b : BitVec 5) : (s.sumTo a b).fault = s.fault := rfl
@[simp] theorem State.sumTo_cause (a : Byte) (b : BitVec 5) : (s.sumTo a b).cause = s.cause := rfl
@[simp] theorem State.sumTo_cfg (a : Byte) (b : BitVec 5) : (s.sumTo a b).cfg = s.cfg := rfl
@[simp] theorem State.sumTo_seq (a : Byte) (b : BitVec 5) : (s.sumTo a b).seq = s.seq := rfl
@[simp] theorem State.sumTo_hist (a : Byte) (b : BitVec 5) : (s.sumTo a b).hist = s.hist := rfl
@[simp] theorem State.sumTo_inputs (a : Byte) (b : BitVec 5) : (s.sumTo a b).inputs = s.inputs := rfl
@[simp] theorem State.sumTo_issue (a : Byte) (b : BitVec 5) : (s.sumTo a b).issue = s.issue := rfl
@[simp] theorem State.sumTo_ret (a : Byte) (b : BitVec 5) : (s.sumTo a b).ret = s.ret := rfl
@[simp] theorem State.sumTo_clk (a : Byte) (b : BitVec 5) : (s.sumTo a b).clk = s.clk := rfl

@[simp] theorem State.returning_ph (r : Returned) : (s.returning r).ph = s.ph := rfl
@[simp] theorem State.returning_bi (r : Returned) : (s.returning r).bi = s.bi := rfl
@[simp] theorem State.returning_k (r : Returned) : (s.returning r).k = s.k := rfl
@[simp] theorem State.returning_acc (r : Returned) : (s.returning r).acc = s.acc := rfl
@[simp] theorem State.returning_fault (r : Returned) : (s.returning r).fault = s.fault := rfl
@[simp] theorem State.returning_cause (r : Returned) : (s.returning r).cause = s.cause := rfl
@[simp] theorem State.returning_cfg (r : Returned) : (s.returning r).cfg = s.cfg := rfl
@[simp] theorem State.returning_seq (r : Returned) : (s.returning r).seq = s.seq := rfl
@[simp] theorem State.returning_hist (r : Returned) : (s.returning r).hist = s.hist := rfl
@[simp] theorem State.returning_inputs (r : Returned) : (s.returning r).inputs = s.inputs := rfl
@[simp] theorem State.returning_issue (r : Returned) : (s.returning r).issue = s.issue := rfl
@[simp] theorem State.returning_ret (r : Returned) : (s.returning r).ret = some r := rfl
@[simp] theorem State.returning_clk (r : Returned) : (s.returning r).clk = s.clk := rfl

@[simp] theorem State.setFault_ph (c : Cause) : (s.setFault c).ph = s.ph := rfl
@[simp] theorem State.setFault_bi (c : Cause) : (s.setFault c).bi = s.bi := rfl
@[simp] theorem State.setFault_k (c : Cause) : (s.setFault c).k = s.k := rfl
@[simp] theorem State.setFault_acc (c : Cause) : (s.setFault c).acc = s.acc := rfl
@[simp] theorem State.setFault_fault (c : Cause) : (s.setFault c).fault = true := rfl
@[simp] theorem State.setFault_cause (c : Cause) : (s.setFault c).cause = c := rfl
@[simp] theorem State.setFault_cfg (c : Cause) : (s.setFault c).cfg = s.cfg := rfl
@[simp] theorem State.setFault_seq (c : Cause) : (s.setFault c).seq = s.seq := rfl
@[simp] theorem State.setFault_hist (c : Cause) : (s.setFault c).hist = s.hist := rfl
@[simp] theorem State.setFault_inputs (c : Cause) : (s.setFault c).inputs = s.inputs := rfl
@[simp] theorem State.setFault_issue (c : Cause) : (s.setFault c).issue = s.issue := rfl
@[simp] theorem State.setFault_ret (c : Cause) : (s.setFault c).ret = s.ret := rfl
@[simp] theorem State.setFault_clk (c : Cause) : (s.setFault c).clk = s.clk := rfl

@[simp] theorem State.failFast_ph (c : Cause) : (s.failFast c).ph = .fault := rfl
@[simp] theorem State.failFast_bi (c : Cause) : (s.failFast c).bi = s.bi := rfl
@[simp] theorem State.failFast_k (c : Cause) : (s.failFast c).k = s.k := rfl
@[simp] theorem State.failFast_acc (c : Cause) : (s.failFast c).acc = s.acc := rfl
@[simp] theorem State.failFast_fault (c : Cause) : (s.failFast c).fault = true := rfl
@[simp] theorem State.failFast_cause (c : Cause) : (s.failFast c).cause = c := rfl
@[simp] theorem State.failFast_cfg (c : Cause) : (s.failFast c).cfg = s.cfg := rfl
@[simp] theorem State.failFast_seq (c : Cause) : (s.failFast c).seq = s.seq := rfl
@[simp] theorem State.failFast_hist (c : Cause) : (s.failFast c).hist = s.hist := rfl
@[simp] theorem State.failFast_inputs (c : Cause) : (s.failFast c).inputs = s.inputs := rfl
@[simp] theorem State.failFast_issue (c : Cause) : (s.failFast c).issue = s.issue := rfl
@[simp] theorem State.failFast_ret (c : Cause) : (s.failFast c).ret = s.ret := rfl
@[simp] theorem State.failFast_clk (c : Cause) : (s.failFast c).clk = s.clk := rfl

@[simp] theorem State.cleared_ph : (s.cleared).ph = .idle := rfl
@[simp] theorem State.cleared_bi : (s.cleared).bi = 0 := rfl
@[simp] theorem State.cleared_k : (s.cleared).k = 0 := rfl
@[simp] theorem State.cleared_acc : (s.cleared).acc = 0 := rfl
@[simp] theorem State.cleared_fault : (s.cleared).fault = false := rfl
@[simp] theorem State.cleared_cause : (s.cleared).cause = .noCause := rfl
@[simp] theorem State.cleared_cfg : (s.cleared).cfg = s.cfg := rfl
@[simp] theorem State.cleared_seq : (s.cleared).seq = [] := rfl
@[simp] theorem State.cleared_hist : (s.cleared).hist = [] := rfl
@[simp] theorem State.cleared_inputs : (s.cleared).inputs = s.inputs := rfl
@[simp] theorem State.cleared_issue : (s.cleared).issue = none := rfl
@[simp] theorem State.cleared_ret : (s.cleared).ret = none := rfl
@[simp] theorem State.cleared_clk : (s.cleared).clk = s.clk := rfl

@[simp] theorem State.tick_ph : (s.tick).ph = s.ph := rfl
@[simp] theorem State.tick_bi : (s.tick).bi = s.bi := rfl
@[simp] theorem State.tick_k : (s.tick).k = s.k := rfl
@[simp] theorem State.tick_acc : (s.tick).acc = s.acc := rfl
@[simp] theorem State.tick_fault : (s.tick).fault = s.fault := rfl
@[simp] theorem State.tick_cause : (s.tick).cause = s.cause := rfl
@[simp] theorem State.tick_cfg : (s.tick).cfg = s.cfg := rfl
@[simp] theorem State.tick_seq : (s.tick).seq = s.seq := rfl
@[simp] theorem State.tick_hist : (s.tick).hist = s.hist := rfl
@[simp] theorem State.tick_inputs : (s.tick).inputs = s.inputs.tail := rfl
@[simp] theorem State.tick_issue : (s.tick).issue = none := rfl
@[simp] theorem State.tick_ret : (s.tick).ret = s.ret := rfl
@[simp] theorem State.tick_clk : (s.tick).clk = s.clk + 1 := rfl

@[simp] theorem State.advance_ph : s.advance.ph = s.ph := by unfold State.advance; split <;> rfl
@[simp] theorem State.advance_bi : s.advance.bi = if s.k = 7 then s.bi + 1 else s.bi := by unfold State.advance; split <;> rfl
@[simp] theorem State.advance_k : s.advance.k = if s.k = 7 then 0 else s.k + 1 := by unfold State.advance; split <;> rfl
@[simp] theorem State.advance_acc : s.advance.acc = s.acc := by unfold State.advance; split <;> rfl
@[simp] theorem State.advance_fault : s.advance.fault = s.fault := by unfold State.advance; split <;> rfl
@[simp] theorem State.advance_cause : s.advance.cause = s.cause := by unfold State.advance; split <;> rfl
@[simp] theorem State.advance_cfg : s.advance.cfg = s.cfg := by unfold State.advance; split <;> rfl
@[simp] theorem State.advance_seq : s.advance.seq = s.seq := by unfold State.advance; split <;> rfl
@[simp] theorem State.advance_hist : s.advance.hist = s.hist := by unfold State.advance; split <;> rfl
@[simp] theorem State.advance_inputs : s.advance.inputs = s.inputs := by unfold State.advance; split <;> rfl
@[simp] theorem State.advance_issue : s.advance.issue = s.issue := by unfold State.advance; split <;> rfl
@[simp] theorem State.advance_ret : s.advance.ret = s.ret := by unfold State.advance; split <;> rfl
@[simp] theorem State.advance_clk : s.advance.clk = s.clk := by unfold State.advance; split <;> rfl

end

end Sys2Proof.Machine
end

