-- ==== Sys2Proof/Laws/Ops.lean ====
section
/-! SUPPORT. What each shared operation can do, said once: the encoder micro-step, the cycle start, the slices and the two
functions over them. -/

namespace Sys2Proof.Machine

/-! ### Ranges and sums -/

theorem slice_self (data : List Byte) (a : Nat) : slice data a a = [] := by
  simp [slice]

theorem slice_length {data : List Byte} {a b : Nat} (h : b ≤ data.length) : (slice data a b).length = b - a := by
  simp [slice]; omega

theorem slice_getElem? (data : List Byte) (a b j : Nat) :
    (slice data a b)[j]? = if a + j < b then data[a + j]? else none := by
  simp [slice, List.getElem?_take]

/-- A range grows by the byte at its end. -/
theorem slice_succ {data : List Byte} {a b : Nat} {x : Byte} (hab : a ≤ b) (hx : data[b]? = some x) :
    slice data a (b + 1) = slice data a b ++ [x] := by
  obtain ⟨hb, rfl⟩ := List.getElem?_eq_some_iff.mp hx
  simp only [slice, List.take_add_one, hx, Option.toList_some]
  rw [List.drop_append_of_le_length (by simp; omega)]

theorem slice_append {data : List Byte} {a m b : Nat} (ham : a ≤ m) (hmb : m ≤ b) (hb : b ≤ data.length) :
    slice data a b = slice data a m ++ slice data m b := by
  apply List.ext_getElem?
  intro j
  have hm := slice_length (a := a) (show m ≤ data.length by omega)
  by_cases hj : j < m - a
  · rw [List.getElem?_append_left (by omega), slice_getElem?, slice_getElem?, if_pos (by omega), if_pos (by omega)]
  · rw [List.getElem?_append_right (by omega), slice_getElem?, slice_getElem?, hm]
    rw [show m + (j - (m - a)) = a + j by omega]

theorem add8_eq (a b : Byte) : add8 a b = a + b := by
  simp [add8, BitVec.ofNat_add]

theorem sumBytes_append (l m : List Byte) : sumBytes (l ++ m) = sumBytes l + sumBytes m := by
  have key : ∀ (m : List Byte) (a : Byte), m.foldl add8 a = a + m.foldl add8 0 := by
    intro m
    induction m with
    | nil => simp
    | cons x m ih =>
      intro a
      simp only [List.foldl_cons]
      rw [ih (add8 a x), ih (add8 0 x)]
      simp [add8_eq, BitVec.add_assoc]
  simp only [sumBytes, List.foldl_append]
  exact key m _

@[simp] theorem sumBytes_nil : sumBytes [] = 0 := rfl

@[simp] theorem sumBytes_single (b : Byte) : sumBytes [b] = b := by
  simp [sumBytes, add8_eq]

/-! ### The encoder as a function -/

@[simp] theorem encodeByte_length (t : SymTab) (b : Byte) : (encodeByte t b).length = 8 := by
  simp [encodeByte]

theorem encodeByte_getElem? (t : SymTab) (b : Byte) {k : Nat} (h : k < 8) :
    (encodeByte t b)[k]? = some (bitsym t b k) := by
  simp [encodeByte, h]

@[simp] theorem encodeBytes_nil (t : SymTab) : encodeBytes t [] = [] := rfl

theorem encodeBytes_append (t : SymTab) (l m : List Byte) :
    encodeBytes t (l ++ m) = encodeBytes t l ++ encodeBytes t m := by
  simp [encodeBytes]

@[simp] theorem encodeBytes_single (t : SymTab) (b : Byte) : encodeBytes t [b] = encodeByte t b := by
  simp [encodeBytes]

@[simp] theorem encodeBytes_length (t : SymTab) (l : List Byte) : (encodeBytes t l).length = 8 * l.length := by
  induction l with
  | nil => rfl
  | cons x l ih =>
    have h : encodeBytes t (x :: l) = encodeByte t x ++ encodeBytes t l := rfl
    rw [h, List.length_append, ih, encodeByte_length, List.length_cons]
    omega

/-! ### The encoder micro-step -/

theorem advance_of_last {s : State} (h : s.k = 7) : s.advance = s.index (s.bi + 1) 0 := if_pos h

theorem advance_of_not_last {s : State} (h : s.k ≠ 7) : s.advance = s.index s.bi (s.k + 1) := if_neg h

/-- Everything an encoder micro-step can do when it gives a next state (R111). -/
theorem encStep_next_cases {src : Nat → Option Byte} {len stop : Nat} {exit : State → State} {s t : State}
    (h : encStep src len stop exit s = .next t) :
    (s.bi.toNat = stop ∧ t = exit s) ∨
    (s.bi.toNat ≠ stop ∧ ∃ b, src s.bi.toNat = some b ∧ t = (s.append (bitKind b s.k.toNat)).advance) := by
  unfold encStep at h
  split at h
  · exact .inl ⟨‹_›, by injection h with h; exact h.symm⟩
  · split at h
    · rename_i b hb
      exact .inr ⟨‹_›, b, hb, by injection h with h; exact h.symm⟩
    · cases h

theorem encStep_exit {src : Nat → Option Byte} {len stop : Nat} {exit : State → State} {s : State}
    (h : s.bi.toNat = stop) : encStep src len stop exit s = .next (exit s) := by
  simp [encStep, h]

theorem encStep_bit {src : Nat → Option Byte} {len stop : Nat} {exit : State → State} {s : State} {b : Byte}
    (h : s.bi.toNat ≠ stop) (hb : src s.bi.toNat = some b) :
    encStep src len stop exit s = .next (s.append (bitKind b s.k.toNat)).advance := by
  simp [encStep, h, hb]

theorem encStep_absent {src : Nat → Option Byte} {len stop : Nat} {exit : State → State} {s : State}
    (h : s.bi.toNat ≠ stop) (hb : src s.bi.toNat = none) :
    encStep src len stop exit s = .fault (.noSuchByte s.bi.toNat len) := by
  simp [encStep, h, hb]

theorem payloadRead_of_lt {c : Config} {i : Nat} (h : i < c.n) : payloadRead c i = c.payload[i]? := by
  simp [payloadRead, h]

/-- In a store of `N` bytes every index below `N` has its byte. -/
theorem payloadRead_some {c : Config} (hc : c.n ≤ c.payload.length) {i : Nat} (h : i < c.n) :
    ∃ b, payloadRead c i = some b ∧ c.payload[i]? = some b :=
  ⟨c.payload[i]'(by omega), by rw [payloadRead_of_lt h]; simp, by simp⟩

/-! ### The cycle start and the range check -/

theorem rangesOk_iff (c : Config) : rangesOk c = true ↔ 8 ≤ c.n - 1 ∧ c.n ≤ c.payload.length ∧ c.n - 1 ≤ 31 := by
  simp only [rangesOk, Bool.and_eq_true, decide_eq_true_eq, and_assoc]
  exact Iff.rfl

theorem startCycle_of_ok {s : State} (h : rangesOk s.cfg = true) :
    s.startCycle = { s with seq := [], ph := .hdr1 } := by
  simp [State.startCycle, h]

theorem startCycle_of_not_ok {s : State} (h : rangesOk s.cfg = false) :
    s.startCycle = s.failFast .preconditionViolation := by
  simp [State.startCycle, h]

/-- Everything a cycle start can do (R123). -/
theorem startCycle_cases (s : State) :
    (rangesOk s.cfg = true ∧ s.startCycle = { s with seq := [], ph := .hdr1 }) ∨
    (rangesOk s.cfg = false ∧ s.startCycle = s.failFast .preconditionViolation) := by
  cases h : rangesOk s.cfg
  · exact .inr ⟨rfl, startCycle_of_not_ok h⟩
  · exact .inl ⟨rfl, startCycle_of_ok h⟩

@[simp] theorem startCycle_cfg (s : State) : s.startCycle.cfg = s.cfg := by
  unfold State.startCycle; split <;> rfl

@[simp] theorem startCycle_inputs (s : State) : s.startCycle.inputs = s.inputs := by
  unfold State.startCycle; split <;> rfl

@[simp] theorem startCycle_issue (s : State) : s.startCycle.issue = s.issue := by
  unfold State.startCycle; split <;> rfl

@[simp] theorem startCycle_clk (s : State) : s.startCycle.clk = s.clk := by
  unfold State.startCycle; split <;> rfl

/-! ### Outcomes of the clock edge -/

@[simp] theorem afterEdge_next (t : State) : afterEdge (.next t) = .next t.tick := rfl
@[simp] theorem afterEdge_fault (r : Fault) : afterEdge (.fault r) = .fault r := rfl
@[simp] theorem afterEdge_refused (r : Refusal) : afterEdge (.refused r) = .refused r := rfl

theorem afterEdge_eq_next {o : Out} {t : State} : afterEdge o = .next t ↔ ∃ u, o = .next u ∧ t = u.tick := by
  cases o <;> simp [afterEdge, eq_comm]

end Sys2Proof.Machine
end

