-- ==== Sys2Proof/Laws/PerInstr.lean ====
section
/-! SUPPORT. Statements made instruction by instruction about the written form. -/

namespace Sys2Proof.Laws.EncodedForm

/-- The written form of an instruction (R77, R81, R82): a symbol row is the packed word of its kind, a phase row the code of
its phase, and an operation, which has no bit pattern, its call with the operands it was given. -/
def Statement (i : Instr) : Prop :=
  match encode i with
  | .symbol w => ∃ k : Kind, i = k.instr ∧ w = kindWord k
  | .phase c => ∃ p : Phase, i = p.instr ∧ c = phaseCode p
  | .call op => i = instrOfCall op
  | .other _ _ => False

theorem zeroBit : Statement .zeroBit := ⟨.zeroBit, rfl, rfl⟩
theorem oneBit : Statement .oneBit := ⟨.oneBit, rfl, rfl⟩
theorem header : Statement .header := ⟨.header, rfl, rfl⟩
theorem pause : Statement .pause := ⟨.pause, rfl, rfl⟩
theorem endSymbol : Statement .endSymbol := ⟨.endSymbol, rfl, rfl⟩
theorem phIdle : Statement .phIdle := ⟨.idle, rfl, rfl⟩
theorem phHdr1 : Statement .phHdr1 := ⟨.hdr1, rfl, rfl⟩
theorem phF1 : Statement .phF1 := ⟨.f1, rfl, rfl⟩
theorem phPause : Statement .phPause := ⟨.pause, rfl, rfl⟩
theorem phHdr2 : Statement .phHdr2 := ⟨.hdr2, rfl, rfl⟩
theorem phF2 : Statement .phF2 := ⟨.f2, rfl, rfl⟩
theorem phSum : Statement .phSum := ⟨.sum, rfl, rfl⟩
theorem phCrc : Statement .phCrc := ⟨.crc, rfl, rfl⟩
theorem phEnd : Statement .phEnd := ⟨.endPhase, rfl, rfl⟩
theorem phSend : Statement .phSend := ⟨.send, rfl, rfl⟩
theorem phWait : Statement .phWait := ⟨.wait, rfl, rfl⟩
theorem phFault : Statement .phFault := ⟨.fault, rfl, rfl⟩
theorem checksum (data : List Byte) (start stop : Nat) : Statement (.checksum data start stop) := rfl
theorem encodeBits (data : List Byte) (start stop : Nat) : Statement (.encodeBits data start stop) := rfl
theorem transmit : Statement .transmit := rfl

end Sys2Proof.Laws.EncodedForm
end

