-- ==== Sys2Proof/Laws/Step.lean ====
section
/-! SUPPORT. The step at a hardware edge is the micro-step of the phase in `PH`; a micro-step is exec of that phase's row. -/

namespace Sys2Proof.Machine

theorem decode_phaseCode (p : Phase) : decode (.phase (phaseCode p)) = .ok p.instr := by
  cases p <;> rfl

theorem fetch_of_no_issue {s : State} (h : s.issue = none) : s.fetch = .phase (phaseCode s.ph) := by
  simp [State.fetch, h]

theorem exec_phase_instr (s : State) : exec s.ph.instr s = microStep s := by
  unfold microStep
  cases h : s.ph <;> rfl

theorem exec_phF1 (s : State) :
    exec .phF1 s = encStep (payloadRead s.cfg) s.cfg.n 8 (fun s => s.goto .pause) s := rfl

theorem exec_phF2 (s : State) :
    exec .phF2 s = encStep (payloadRead s.cfg) s.cfg.n (s.cfg.n - 1) (fun s => (s.sumTo 0 8).goto .sum) s := rfl

theorem exec_phCrc (s : State) :
    exec .phCrc s = encStep (oneByte s.acc) 1 1 (fun s => s.goto .endPhase) s := rfl

/-- Everything a micro-step can do when it gives a next state, one constructor for each way (R123 to R136). -/
inductive MicroMove (s : State) : State → Prop where
  | idleStart (h : s.ph = .idle) (c : s.sample.cycleStart = true) (ok : rangesOk s.cfg = true) :
      MicroMove s { s with seq := [], ph := .hdr1 }
  | idleFailFast (h : s.ph = .idle) (c : s.sample.cycleStart = true) (ok : rangesOk s.cfg = false) :
      MicroMove s (s.failFast .preconditionViolation)
  | idleHold (h : s.ph = .idle) (c : s.sample.cycleStart = false) : MicroMove s s
  | hdr1 (h : s.ph = .hdr1) : MicroMove s (((s.append .header).index 0 0).goto .f1)
  | f1Bit (h : s.ph = .f1) (e : s.bi.toNat ≠ 8) (b : Byte) (r : payloadRead s.cfg s.bi.toNat = some b) :
      MicroMove s (s.append (bitKind b s.k.toNat)).advance
  | f1Exit (h : s.ph = .f1) (e : s.bi.toNat = 8) : MicroMove s (s.goto .pause)
  | pause (h : s.ph = .pause) : MicroMove s ((s.append .pause).goto .hdr2)
  | hdr2 (h : s.ph = .hdr2) : MicroMove s (((s.append .header).index 8 0).goto .f2)
  | f2Bit (h : s.ph = .f2) (e : s.bi.toNat ≠ s.cfg.n - 1) (b : Byte) (r : payloadRead s.cfg s.bi.toNat = some b) :
      MicroMove s (s.append (bitKind b s.k.toNat)).advance
  | f2Exit (h : s.ph = .f2) (e : s.bi.toNat = s.cfg.n - 1) : MicroMove s ((s.sumTo 0 8).goto .sum)
  | sumByte (h : s.ph = .sum) (e : s.bi.toNat ≠ s.cfg.n - 1) (b : Byte)
      (r : payloadRead s.cfg s.bi.toNat = some b) : MicroMove s (s.sumTo (add8 s.acc b) (s.bi + 1))
  | sumExit (h : s.ph = .sum) (e : s.bi.toNat = s.cfg.n - 1) : MicroMove s ((s.index 0 0).goto .crc)
  | crcBit (h : s.ph = .crc) (e : s.bi.toNat = 0) : MicroMove s (s.append (bitKind s.acc s.k.toNat)).advance
  | crcExit (h : s.ph = .crc) (e : s.bi.toNat = 1) : MicroMove s (s.goto .endPhase)
  | endPhase (h : s.ph = .endPhase) : MicroMove s ((s.append .endSymbol).goto .send)
  | send (h : s.ph = .send) : MicroMove s (s.sendOff.goto .wait)
  | waitDone (h : s.ph = .wait) (ok : Bool) (a : answerOf s.sample = some ok) :
      MicroMove s ((s.complete ok).goto .idle)
  | waitHold (h : s.ph = .wait) (a : answerOf s.sample = none) : MicroMove s s
  | fault (h : s.ph = .fault) : MicroMove s s

theorem oneByte_eq_some {a b : Byte} {i : Nat} : oneByte a i = some b ↔ i = 0 ∧ a = b := by
  cases i <;> simp [oneByte]

/-- The inversion of a micro-step: cite it instead of unfolding `microStep`. -/
theorem microStep_cases {s t : State} (h : microStep s = .next t) : MicroMove s t := by
  unfold microStep at h
  cases hp : s.ph <;> simp only [hp] at h
  case idle =>
    simp only [execPhIdle] at h
    split at h <;> injection h with h <;> subst h
    · rcases startCycle_cases s with ⟨ok, e⟩ | ⟨ok, e⟩ <;> rw [e]
      · exact .idleStart hp ‹_› ok
      · exact .idleFailFast hp ‹_› ok
    · exact .idleHold hp (Bool.eq_false_of_not_eq_true ‹_›)
  case f1 =>
    rcases encStep_next_cases h with ⟨e, rfl⟩ | ⟨e, b, r, rfl⟩
    · exact .f1Exit hp e
    · exact .f1Bit hp e b r
  case f2 =>
    rcases encStep_next_cases h with ⟨e, rfl⟩ | ⟨e, b, r, rfl⟩
    · exact .f2Exit hp e
    · exact .f2Bit hp e b r
  case sum =>
    simp only [execPhSum] at h
    split at h
    · injection h with h; subst h; exact .sumExit hp ‹_›
    · split at h
      · injection h with h; subst h; exact .sumByte hp ‹_› _ ‹_›
      · cases h
  case crc =>
    rcases encStep_next_cases h with ⟨e, rfl⟩ | ⟨_, b, r, rfl⟩
    · exact .crcExit hp e
    · obtain ⟨e, rfl⟩ := oneByte_eq_some.mp r
      exact .crcBit hp e
  case wait =>
    simp only [execPhWait] at h
    split at h <;> injection h with h <;> subst h
    · exact .waitDone hp _ ‹_›
    · exact .waitHold hp ‹_›
  case hdr1 => injection h with h; subst h; exact .hdr1 hp
  case pause => injection h with h; subst h; exact .pause hp
  case hdr2 => injection h with h; subst h; exact .hdr2 hp
  case endPhase => injection h with h; subst h; exact .endPhase hp
  case send => injection h with h; subst h; exact .send hp
  case fault => injection h with h; subst h; exact .fault hp

/-- What no micro-step touches. -/
theorem microStep_keeps {s t : State} (h : microStep s = .next t) :
    t.cfg = s.cfg ∧ t.inputs = s.inputs ∧ t.issue = s.issue ∧ t.ret = s.ret ∧ t.clk = s.clk := by
  cases microStep_cases h <;> simp

/-- A reset at the edge (R162). -/
theorem step_of_reset {s : State} (h : s.sample.rst = true) : step s = .next s.cleared.tick := by
  simp [step, h]

/-- A hardware edge: no reset raised, nothing issued by a bench. -/
theorem step_of_hardware {s : State} (hr : s.sample.rst = false) (hi : s.issue = none) :
    step s = afterEdge (microStep s) := by
  simp [step, hr, fetch_of_no_issue hi, decode_phaseCode, exec_phase_instr]

end Sys2Proof.Machine
end

