-- ==== Sys2Proof/Tests/Slice0.lean ====
section
/-! SUPPORT. The model's own tests: well-formedness, decoding, one step of each row, the worked values of spec/95, and for each
statement with hypotheses a concrete state that meets them. Expected values are the spec's: R77 and R82 (words and codes),
95_test_vectors.md V1 to V7, B1 to B5 and P1 to P5, and the worked examples of R123 to R135. -/

namespace Sys2Proof.Tests

open Sys2Proof.Machine Sys2Proof.Safety

/-! ### Helpers -/

/-- Whether an outcome is a next state with a given property. -/
def nextHas (o : Out) (f : State → Bool) : Bool :=
  match o with
  | .next t => f t
  | .fault _ | .refused _ => false

/-- Whether an outcome is a given fault. -/
def faults (o : Out) (r : Fault) : Bool :=
  match o with
  | .fault q => decide (q = r)
  | .next _ | .refused _ => false

/-- Whether an outcome is a given refusal. -/
def refuses (o : Out) (r : Refusal) : Bool :=
  match o with
  | .refused q => decide (q = r)
  | .next _ | .fault _ => false

/-- The reference build in phase `p` at byte `b`, bit `j`. -/
def at3 (p : Phase) (b j : Nat) : State := { State.reset with ph := p, bi := BitVec.ofNat 5 b, k := BitVec.ofNat 3 j }

def start : Sample := { Sample.low with cycleStart := true }
def done : Sample := { Sample.low with txDone := true }
def fail : Sample := { Sample.low with txFail := true }
def both : Sample := { Sample.low with txDone := true, txFail := true }
def rst : Sample := { Sample.low with rst := true, cycleStart := true, txDone := true }

/-- `s` with one sample at the coming edge. -/
def seeing (x : Sample) (s : State) : State := { s with inputs := [x] }

/-- The configuration of program P3: the smallest, with an empty body. -/
def cfg9 : Config := ⟨9, [0x01, 0x02, 0x04, 0x08, 0x10, 0x20, 0x40, 0x80, 0xAA], refSymtab⟩

/-- The largest well-formed payload length. -/
def cfg32 : Config := ⟨32, List.replicate 32 0xFF, refSymtab⟩

/-- Program P5's configuration: no room for a body range. -/
def cfg8 : Config := ⟨8, [1, 2, 3, 4, 5, 6, 7, 8], refSymtab⟩

/-- P3's build in `PH_IDLE`. -/
def idle9 : State := { State.reset with cfg := cfg9 }

/-- P3's build waiting for the peripheral, its whole frame sent. -/
def wait9 : State :=
  { State.reset with
    cfg := cfg9, ph := .wait, bi := 1
    seq := frame cfg9, hist := (frame cfg9).map appendEvent ++ [.send] }

/-- A listing as kind codes (R83), 7 for a pair that is no symbol. -/
def codes (l : List TimedSymbol) : List Nat := l.map fun x => ((kindOfSymbol x).map fun j => (kindCode j).toNat).getD 7

/-! ### Well-formedness: one ill-formed term for each check -/

theorem test_wf_reference : refConfig.WellFormed := by decide
theorem test_wf_smallest : cfg9.WellFormed := by decide
theorem test_wf_largest : cfg32.WellFormed := by decide
theorem test_illformed_n_below_9 : ¬ cfg8.WellFormed := by decide
theorem test_illformed_n_above_32 : ¬ ({ cfg32 with n := 33, payload := List.replicate 33 0 } : Config).WellFormed := by decide
theorem test_illformed_payload_short : ¬ ({ refConfig with n := 27 } : Config).WellFormed := by decide
theorem test_illformed_constant : ¬ ({ refConfig with symtab := { refSymtab with zeroBit := ⟨430, 432⟩ } } : Config).WellFormed := by
  decide
theorem test_illformed_checksum_inverted : (Instr.checksum [0x5A, 0x01] 2 1).wellFormed = false := by decide
theorem test_illformed_checksum_beyond : (Instr.checksum [0x5A] 0 2).wellFormed = false := by decide
theorem test_illformed_encode_inverted : (Instr.encodeBits [0x12, 0x34] 2 0).wellFormed = false := by decide
theorem test_illformed_encode_beyond : (Instr.encodeBits [0x12] 2 2).wellFormed = false := by decide
theorem test_wf_empty_range : (Instr.checksum [0x5A] 1 1).wellFormed = true := by decide

/-! ### Decoding: the words of R77 and the codes of R82, bit by bit -/

theorem test_decode_zeroBit : decode (.symbol 0b0000_0001_1011_0000_0000_0001_1011_0000) = .ok .zeroBit := rfl
theorem test_decode_oneBit : decode (.symbol 0b0000_0001_1011_0000_0000_0101_0001_0000) = .ok .oneBit := rfl
theorem test_decode_header : decode (.symbol 0b0000_1101_1000_1100_0000_0110_1110_0111) = .ok .header := rfl
theorem test_decode_pause : decode (.symbol 0b0000_0001_1011_0000_0010_0111_0001_0000) = .ok .pause := rfl
theorem test_decode_end : decode (.symbol 0b0000_0001_1011_0000_0000_0000_0000_0000) = .ok .endSymbol := rfl
theorem test_decode_phIdle : decode (.phase 0b0000) = .ok .phIdle := rfl
theorem test_decode_phHdr1 : decode (.phase 0b0001) = .ok .phHdr1 := rfl
theorem test_decode_phF1 : decode (.phase 0b0010) = .ok .phF1 := rfl
theorem test_decode_phPause : decode (.phase 0b0011) = .ok .phPause := rfl
theorem test_decode_phHdr2 : decode (.phase 0b0100) = .ok .phHdr2 := rfl
theorem test_decode_phF2 : decode (.phase 0b0101) = .ok .phF2 := rfl
theorem test_decode_phSum : decode (.phase 0b0110) = .ok .phSum := rfl
theorem test_decode_phCrc : decode (.phase 0b0111) = .ok .phCrc := rfl
theorem test_decode_phEnd : decode (.phase 0b1000) = .ok .phEnd := rfl
theorem test_decode_phSend : decode (.phase 0b1001) = .ok .phSend := rfl
theorem test_decode_phWait : decode (.phase 0b1010) = .ok .phWait := rfl
theorem test_decode_phFault : decode (.phase 0b1111) = .ok .phFault := rfl
theorem test_decode_checksum : decode (.call (.checksum [0xFF, 0xFF] 0 2)) = .ok (.checksum [0xFF, 0xFF] 0 2) := rfl
theorem test_decode_encodeBits : decode (.call (.encodeBits [0x01] 0 1)) = .ok (.encodeBits [0x01] 0 1) := rfl
theorem test_decode_transmit : decode (.call .transmit) = .ok .transmit := rfl
theorem test_decode_reserved_phase : decode (.phase 0b1011) = .error (.reservedPhase 11) := rfl
theorem test_decode_near_symbol : decode (.symbol 0x01AE01B0) = .error (.notASymbolWord 0x01AE01B0) := rfl
theorem test_decode_no_format : decode (codeOfTable 16 0) = .error (.noSuchFormat 16 0) := rfl
theorem test_table_phase_high_bits : decodeTableWord 8 0x12 = none := by decide

/-! ### One step of each row -/

theorem test_zeroBit : nextHas (exec .zeroBit State.reset) (fun t => decide (t.seq = [⟨432, 432⟩])) = true := by decide
theorem test_oneBit : nextHas (exec .oneBit State.reset) (fun t => decide (t.seq = [⟨432, 1296⟩])) = true := by decide
theorem test_header : nextHas (exec .header State.reset) (fun t => decide (t.hist = [.append 3468 1767])) = true := by decide
theorem test_pause : nextHas (exec .pause State.reset) (fun t => decide (t.hist = [.append 432 10000])) = true := by decide
theorem test_endSymbol : nextHas (exec .endSymbol State.reset) (fun t => decide (t.seq = [⟨432, 0⟩])) = true := by decide

/-- B4, micro-step 1. -/
theorem test_phIdle_start :
    nextHas (step (seeing start State.reset)) (fun t => decide (t.ph = .hdr1) && decide (t.seq = [])) = true := by decide
/-- P5. -/
theorem test_phIdle_failFast :
    nextHas (step (seeing start { State.reset with cfg := cfg8 }))
      (fun t => decide (t.ph = .fault) && t.fault && decide (t.cause = .preconditionViolation) && decide (t.hist = [])) = true := by
  decide
/-- B4, micro-step 2. -/
theorem test_phHdr1 :
    nextHas (step (at3 .hdr1 3 5))
      (fun t => decide (t.ph = .f1) && decide (t.bi = 0) && decide (t.k = 0) && decide (t.seq = [⟨3468, 1767⟩])) = true := by
  decide
/-- B4, micro-step 9: bit 6 of 0x40. -/
theorem test_phF1_bit : nextHas (step (at3 .f1 0 6)) (fun t => decide (t.k = 7) && decide (t.seq = [⟨432, 1296⟩])) = true := by
  decide
/-- B4, micro-step 67. -/
theorem test_phF1_exit : nextHas (step (at3 .f1 8 0)) (fun t => decide (t.ph = .pause) && decide (t.seq = [])) = true := by decide
/-- B4, micro-step 68. -/
theorem test_phPause : nextHas (step (at3 .pause 8 0)) (fun t => decide (t.ph = .hdr2) && decide (t.seq = [⟨432, 10000⟩])) = true := by
  decide
/-- B4, micro-step 69. -/
theorem test_phHdr2 :
    nextHas (step (at3 .hdr2 0 0)) (fun t => decide (t.ph = .f2) && decide (t.bi = 8) && decide (t.seq = [⟨3468, 1767⟩])) = true := by
  decide
/-- R128: byte 8 is 0x02; the last bit of a byte moves `BI` on. -/
theorem test_phF2_bit :
    nextHas (step (at3 .f2 8 7)) (fun t => decide (t.bi = 9) && decide (t.k = 0) && decide (t.seq = [⟨432, 432⟩])) = true := by
  decide
/-- B4, micro-step 206. -/
theorem test_phF2_exit :
    nextHas (step { at3 .f2 25 0 with acc := 9 })
      (fun t => decide (t.ph = .sum) && decide (t.bi = 8) && decide (t.acc = 0) && decide (t.seq = [])) = true := by decide
/-- B4, micro-step 209: the sum wraps. -/
theorem test_phSum_wraps :
    nextHas (step { at3 .sum 10 0 with acc := 0x22 }) (fun t => decide (t.acc = 0x02) && decide (t.bi = 11)) = true := by decide
/-- B4, micro-step 224. -/
theorem test_phSum_exit :
    nextHas (step { at3 .sum 25 0 with acc := 0x7E })
      (fun t => decide (t.ph = .crc) && decide (t.bi = 0) && decide (t.acc = 0x7E)) = true := by decide
/-- R131: bit 1 of 0x7E. -/
theorem test_phCrc_bit :
    nextHas (step { at3 .crc 0 1 with acc := 0x7E }) (fun t => decide (t.k = 2) && decide (t.seq = [⟨432, 1296⟩])) = true := by
  decide
/-- B4, micro-step 233. -/
theorem test_phCrc_exit : nextHas (step (at3 .crc 1 0)) (fun t => decide (t.ph = .endPhase) && decide (t.seq = [])) = true := by
  decide
/-- B4, micro-step 234. -/
theorem test_phEnd : nextHas (step (at3 .endPhase 1 0)) (fun t => decide (t.ph = .send) && decide (t.seq = [⟨432, 0⟩])) = true := by
  decide
/-- B4, micro-step 235. -/
theorem test_phSend : nextHas (step (at3 .send 1 0)) (fun t => decide (t.ph = .wait) && decide (t.hist = [.send])) = true := by decide
/-- B5 and R162: a failed send ends the cycle; `tx_done` wins. -/
theorem test_phWait_fail :
    nextHas (step (seeing fail wait9)) (fun t => decide (t.ph = .idle) && decide (t.seq = []) && !t.fault &&
      decide (t.hist.getLast? = some (.done false))) = true := by decide +kernel
theorem test_phWait_both :
    nextHas (step (seeing both (at3 .wait 1 0))) (fun t => decide (t.hist = [.done true])) = true := by decide
/-- R136. -/
theorem test_phFault :
    nextHas (step (seeing start (at3 .fault 0 0))) (fun t => decide (t.ph = .fault) && decide (t.hist = [])) = true := by decide

/-- V2 and B1. -/
theorem test_checksum :
    nextHas (exec (.checksum [0xFF, 0xFF] 0 2) State.reset) (fun t => decide (t.ret = some (.byte 0xFE))) = true ∧
    nextHas (exec (.checksum refPayload 8 25) State.reset) (fun t => decide (t.ret = some (.byte 0x7E))) = true ∧
    nextHas (exec (.checksum refPayload 0 26) State.reset) (fun t => decide (t.ret = some (.byte 0x49))) = true ∧
    nextHas (exec (.checksum [0x10, 0x20, 0x30, 0x40] 1 3) State.reset) (fun t => decide (t.ret = some (.byte 0x50))) = true := by
  decide
/-- B1. -/
theorem test_checksum_refuses_range :
    faults (exec (.checksum [0x5A, 0x01] 2 1) State.reset) (.preconditionViolation .checksum 2 1 2) = true := by decide
/-- V3 and B2. -/
theorem test_encodeBits :
    nextHas (exec (.encodeBits [0x01] 0 1) State.reset)
      (fun t => decide (t.ret = some (.symbols (⟨432, 1296⟩ :: List.replicate 7 ⟨432, 432⟩)))) = true ∧
    (encodeRange refSymtab [0x12, 0x34, 0x56] 1 3).toOption.map codes = some [0, 0, 1, 0, 1, 1, 0, 0, 0, 1, 1, 0, 1, 0, 1, 0] := by
  decide
/-- B2. -/
theorem test_encodeBits_refuses_range :
    faults (exec (.encodeBits [0x12] 0 2) State.reset) (.preconditionViolation .encodeBits 0 2 1) = true := by decide

/-- P3 with a failed send: 76 appends, `Send`, `Done`. -/
theorem test_transmit :
    nextHas (exec .transmit { idle9 with inputs := List.replicate 82 Sample.low ++ [fail] })
      (fun t => decide (t.ph = .idle) && decide (t.bi = 1) && decide (t.acc = 0) && decide (t.hist.length = 78) &&
        decide (t.hist.getLast? = some (.done false))) = true := by decide +kernel
/-- R160. -/
theorem test_transmit_outside_idle :
    nextHas (exec .transmit (at3 .sum 9 0)) (fun t => decide (t = at3 .sum 9 0)) = true := by decide +kernel

/-! ### The step -/

theorem test_reset_wins :
    nextHas (step (seeing rst { at3 .wait 1 0 with acc := 9, fault := true }))
      (fun t => decide (t = { State.reset with clk := 1 })) = true := by decide +kernel
theorem test_issued_row :
    nextHas (step (State.reset.withFetchWord 32 0x01B02710)) (fun t => decide (t.seq = [⟨432, 10000⟩]) && decide (t.issue = none)) =
      true := by decide
theorem test_phase_word : nextHas (step (State.reset.withFetchWord 8 9)) (fun t => decide (t.hist = [.send])) = true := by decide
theorem test_reserved_code_in_ph :
    nextHas (step (State.reset.withFetchWord 8 13)) (fun t => decide (t.ph = .fault)) = true := by decide
theorem test_not_a_symbol_word :
    refuses (step (State.reset.withFetchWord 32 0x01B001B1)) (.notASymbolWord 0x01B001B1) = true := by decide

/-! ### The worked values of a transmission -/

/-- V7, the whole listing, byte by byte: header 2, pause 3, end 4. -/
def listingV7 : List Nat :=
  [2] ++ [0, 0, 0, 0, 0, 0, 1, 0] ++ [0, 0, 1, 0, 0, 0, 0, 0] ++ [1, 1, 1, 0, 0, 0, 0, 0] ++ [0, 0, 0, 0, 0, 1, 0, 0] ++
  List.replicate 24 0 ++ [0, 0, 0, 0, 0, 1, 1, 0] ++ [3] ++ [2] ++
  [0, 1, 0, 0, 0, 0, 0, 0] ++ [0, 0, 0, 0, 0, 1, 0, 0] ++ [0, 0, 0, 0, 0, 1, 1, 1] ++ [0, 0, 1, 0, 0, 0, 0, 0] ++
  [0, 0, 0, 0, 0, 0, 0, 0] ++ [0, 0, 0, 1, 1, 1, 0, 0] ++ [0, 0, 0, 0, 0, 1, 0, 0] ++ [0, 0, 0, 0, 0, 0, 0, 1] ++
  [1, 0, 0, 0, 1, 1, 0, 0] ++ List.replicate 16 0 ++ [0, 1, 1, 1, 0, 0, 0, 0] ++ [0, 0, 0, 0, 0, 1, 1, 1] ++
  List.replicate 16 0 ++ [1, 0, 0, 0, 0, 0, 0, 1] ++ List.replicate 8 0 ++ [0, 1, 1, 1, 1, 1, 1, 0] ++ [4]

theorem test_frame_reference : codes (frame refConfig) = listingV7 := by decide +kernel
/-- R180. -/
theorem test_ticks_reference :
    airTicks (frame refConfig) = 232150 ∧ ticksAt true (frame refConfig) = 97656 ∧ ticksAt false (frame refConfig) = 134494 := by
  decide +kernel
/-- P4: the checksum wraps to 0 and the transmission lasts 141430 ticks. -/
theorem test_frame_P4 :
    let c : Config := ⟨12, [0x00, 0xFF, 0x55, 0xAA, 0x0F, 0xF0, 0x80, 0x01, 0xFF, 0xFF, 0x02, 0x5A], refSymtab⟩
    crcOf c = 0 ∧ (frame c).length = 100 ∧ airTicks (frame c) = 141430 := by decide +kernel
/-- P2: one body byte changed by +1. -/
theorem test_increment_P2 : crcOf { refConfig with payload := refPayload.set 13 0x39 } = 0x7F := by decide
/-- R87 (e). -/
theorem test_listing : listing [⟨3468, 1767⟩, ⟨432, 1296⟩, ⟨432, 432⟩, ⟨432, 10000⟩, ⟨432, 0⟩, ⟨1, 1⟩] = ['H', '1', '0', 'P', 'E', '?'] := by
  decide

/-! ### Witnesses: for each statement with hypotheses, values that meet them, clause by clause and at the ends of ranges -/

/-- A state of R37's table: P3's build at the first phase of a cycle. -/
theorem onTrack_hdr1 : OnTrack { idle9 with ph := .hdr1 } :=
  ⟨by decide, rfl, rfl, rfl, rfl, List.nil_prefix⟩

/-- A state of R37's table: P3's build waiting, with its whole frame. -/
theorem onTrack_wait : OnTrack wait9 :=
  ⟨by decide, rfl, rfl, rfl, by simp only [Position, wait9]; decide +kernel, List.prefix_rfl⟩

/-- A state of R37's table: the exit of frame 1 in P3's build. -/
theorem onTrack_f1_exit : OnTrack { wait9 with ph := .f1, bi := 8, seq := (frame cfg9).take 65 } :=
  ⟨by decide, rfl, rfl, rfl, by simp only [Position, wait9]; decide +kernel, List.take_prefix _ _⟩

/-- Hardware edges that hold, start, append, complete and stop. -/
theorem witness_hardware_edge :
    (at3 .idle 0 0).sample.rst = false ∧ (at3 .idle 0 0).issue = none ∧ nextHas (step (at3 .idle 0 0)) (fun _ => true) = true ∧
    nextHas (step (seeing start (at3 .idle 0 0))) (fun t => decide (t.st = some .sending)) = true ∧
    nextHas (step (at3 .hdr1 0 0)) (fun _ => true) = true ∧
    nextHas (step (seeing done (at3 .wait 1 0))) (fun t => decide (t.st = some .idle)) = true ∧
    nextHas (step (at3 .fault 0 0)) (fun t => decide (t.st = none)) = true := by decide

theorem witness_DecodeAndEncodeAgree :
    decode (.symbol 0x01B00000) = .ok .endSymbol ∧ decode (.phase 15) = .ok .phFault ∧ decode (.call .transmit) = .ok .transmit ∧
    decodeTableWord 32 0x0D8C06E7 = some .header ∧ decodeTableWord 4 15 = some .phFault := by
  refine ⟨rfl, rfl, rfl, by decide, by decide⟩

theorem witness_ReservedCodesAreRefused :
    (∀ j : Kind, (0x01B00001 : BitVec 32) ≠ kindWord j) ∧
    (State.reset.withFetchWord 32 0x01B00001).sample.rst = false ∧
    (State.reset.withFetchWord 32 0x01B00001).issue = some (.symbol 0x01B00001) ∧
    11 ≤ (11 : BitVec 4).toNat ∧ (14 : BitVec 4).toNat ≤ 14 ∧ 5 ≤ (5 : BitVec 3).toNat := by
  refine ⟨fun j => ?_, by decide, by decide, by decide, by decide, by decide⟩
  cases j <;> decide

theorem witness_SymbolWordHoldsMarkOverSpace :
    (at3 .hdr1 0 0).sample.rst = false ∧ mux (at3 .hdr1 0 0) = some .header ∧ mux (at3 .f1 7 7) = some .zeroBit := by decide

theorem witness_StepRunsTheDecodedInstruction :
    State.reset.sample.rst = false ∧ decode State.reset.fetch = .ok .phIdle ∧
    nextHas (exec .phIdle State.reset) (fun _ => true) = true ∧
    faults (exec (.checksum [] 0 1) { State.reset with issue := some (.call (.checksum [] 0 1)) })
      (.preconditionViolation .checksum 0 1 0) = true ∧
    decode (State.fetch { State.reset with issue := some (.call (.checksum [] 0 1)) }) = .ok (.checksum [] 0 1) := by
  refine ⟨by decide, rfl, by decide, by decide, rfl⟩

theorem witness_ResetPutsEveryElementAtItsValue :
    (seeing rst (at3 .send 1 0)).sample.rst = true ∧ (at3 .fault 0 0).sample.rst = false ∧ (at3 .fault 0 0).issue = none ∧
    nextHas (step (at3 .fault 0 0)) (fun _ => true) = true := by decide

theorem witness_DataBitSelectsItsSymbol :
    (0x80 : Byte).toNat / 2 ^ 7 % 2 = 1 ∧ (0x80 : Byte).toNat / 2 ^ 0 % 2 = 0 := by decide

theorem witness_SymbolRowsAppendTheirPair : idle9.cfg.symtab = State.reset.cfg.symtab := rfl

theorem witness_ConstantSymbolPhases :
    nextHas (exec .phHdr1 State.reset) (fun _ => true) = true ∧
    (∃ s : State, s.cfg.symtab = State.reset.cfg.symtab ∧ s.seq.length = 65 ∧ nextHas (exec .phPause s) (fun _ => true) = true) ∧
    (∃ s : State, s.cfg.symtab = State.reset.cfg.symtab ∧ s.seq.length = 66 ∧ nextHas (exec .phHdr2 s) (fun _ => true) = true) :=
  ⟨by decide, ⟨{ State.reset with seq := List.replicate 65 ⟨432, 432⟩ }, rfl, by simp, rfl⟩,
    ⟨{ State.reset with seq := List.replicate 66 ⟨432, 432⟩ }, rfl, by simp, rfl⟩⟩

theorem witness_EncoderPhasesAppendOneBit :
    (at3 .f1 8 0).bi.toNat = 8 ∧ (at3 .f2 25 0).bi.toNat = refConfig.n - 1 ∧ (at3 .crc 1 0).bi.toNat = 1 ∧
    payloadRead refConfig 0 = some 0x40 ∧ payloadRead refConfig 7 = some 0x60 ∧ payloadRead refConfig 25 = some 0x00 ∧
    payloadRead refConfig 8 = some 0x02 ∧ payloadRead refConfig 24 = some 0x00 ∧
    (at3 .crc 0 7).bi.toNat = 0 ∧ payloadRead refConfig 26 = none ∧ payloadRead refConfig 31 = none ∧
    2 ≤ (at3 .crc 2 0).bi.toNat := by decide

theorem witness_SumPhaseAddsOneByte :
    (at3 .sum 25 0).bi.toNat = refConfig.n - 1 ∧ (at3 .sum 24 0).bi.toNat ≠ refConfig.n - 1 ∧
    payloadRead refConfig 24 = some 0x00 ∧ (at3 .sum 26 0).bi.toNat ≠ refConfig.n - 1 ∧ payloadRead refConfig 26 = none := by decide

theorem witness_IdlePhaseStartsOrFailsFast :
    State.reset.sample.cycleStart = false ∧ (seeing start State.reset).sample.cycleStart = true ∧
    (8 ≤ cfg9.n - 1 ∧ cfg9.n ≤ cfg9.payload.length ∧ cfg9.n - 1 ≤ 31) ∧
    (8 ≤ cfg32.n - 1 ∧ cfg32.n ≤ cfg32.payload.length ∧ cfg32.n - 1 ≤ 31) ∧
    ¬ (8 ≤ cfg8.n - 1 ∧ cfg8.n ≤ cfg8.payload.length ∧ cfg8.n - 1 ≤ 31) := by decide

theorem witness_WaitPhaseHoldsOrCompletes :
    ((at3 .wait 1 0).sample.txDone = false ∧ (at3 .wait 1 0).sample.txFail = false) ∧
    (seeing both (at3 .wait 1 0)).sample.txDone = true ∧
    ((seeing fail (at3 .wait 1 0)).sample.txDone = false ∧ (seeing fail (at3 .wait 1 0)).sample.txFail = true) := by decide

theorem witness_FaultPhaseKeepsEverything : (at3 .fault 0 0).ph = .fault := rfl

theorem witness_PhaseAndSymbolRowsKeepTheRest :
    nextHas (exec .phIdle State.reset) (fun _ => true) = true ∧ nextHas (exec .phSum (at3 .sum 24 0)) (fun _ => true) = true ∧
    nextHas (exec .phFault State.reset) (fun _ => true) = true ∧ nextHas (exec .zeroBit State.reset) (fun _ => true) = true ∧
    nextHas (exec .phSend State.reset) (fun _ => true) = true ∧ Kind.zeroBit.instr = .zeroBit := by decide

theorem witness_NoInstructionWritesTheStores :
    nextHas (exec .phF2 (at3 .f2 24 7)) (fun _ => true) = true ∧
    nextHas (exec .transmit { idle9 with inputs := List.replicate 82 Sample.low ++ [done] }) (fun _ => true) = true := by
  decide +kernel

theorem witness_ranges :
    (0 ≤ 2 ∧ 2 ≤ [0xFF, (0xFF : Byte)].length) ∧ (2 ≤ 2 ∧ 2 ≤ [0xFF, (0xFF : Byte)].length) ∧
    ¬ (2 ≤ 1 ∧ 1 ≤ [0x5A, (0x01 : Byte)].length) ∧ ¬ (0 ≤ 2 ∧ 2 ≤ [(0x5A : Byte)].length) := by decide

theorem witness_ChecksumLaws :
    ([0x01, 0xFF, (0x02 : Byte)][1]? = some 0xFF) ∧
    List.Perm (slice [0x01, (0x02 : Byte)] 0 2) (slice [0x02, (0x01 : Byte)] 0 2) ∧
    (0 ≤ 1 ∧ 1 ≤ 3 ∧ 3 ≤ [0x01, 0xFF, (0x02 : Byte)].length) ∧ [(0x01 : Byte)].length = [(0x09 : Byte)].length := by decide

theorem witness_EncoderLaws :
    refSymtab.zeroBit ≠ refSymtab.oneBit ∧
    encodeRange refSymtab [0x12, 0x34] 1 2 = .ok (encodeBytes refSymtab [0x34]) ∧
    encodeRange refSymtab [0x34] 0 1 = .ok (encodeBytes refSymtab [0x34]) ∧
    nextHas (exec (.encodeBits [0x34] 0 1) State.reset) (fun _ => true) = true ∧
    nextHas (exec (.encodeBits [0x34] 0 1) wait9) (fun _ => true) = true ∧ State.reset.cfg.symtab = wait9.cfg.symtab :=
  ⟨by decide, rfl, rfl, rfl, rfl, rfl⟩

/-- The configurations of the statements on frames: the smallest, the reference and the largest, read at the ends of the two
frames. -/
theorem witness_frames :
    cfg9.WellFormed ∧ refConfig.WellFormed ∧ cfg32.WellFormed ∧ payloadRead cfg9 0 = some 0x01 ∧ payloadRead cfg9 7 = some 0x80 ∧
    (8 < refConfig.n - 1 ∧ payloadRead refConfig 8 = some 0x02) ∧ payloadRead cfg32 30 = some 0xFF := by decide

theorem witness_ReservedSlotIsNeverRead :
    OnTrack wait9 ∧ nextHas (step wait9) (fun _ => true) = true := ⟨onTrack_wait, by decide +kernel⟩

theorem witness_EncoderPhasesRunTheirRange :
    (at3 .f1 0 0).cfg.WellFormed ∧ (at3 .f1 0 0).issue = none ∧ (at3 .f1 0 0).k = 0 ∧ (at3 .f1 0 0).bi = 0 ∧
    NoResetFor 65 (at3 .f1 0 0) ∧ (at3 .f2 8 0).bi = 8 ∧ NoResetFor (8 * (26 - 9) + 1) (at3 .f2 8 0) ∧
    (at3 .crc 0 0).bi = 0 ∧ NoResetFor 9 (at3 .crc 0 0) := by
  refine ⟨by decide, rfl, rfl, rfl, ?_, rfl, ?_, rfl, ?_⟩ <;> simp [NoResetFor, at3, State.reset]

theorem witness_SumPhaseComputesTheChecksum :
    (at3 .sum 8 0).cfg.WellFormed ∧ (at3 .sum 8 0).issue = none ∧ (at3 .sum 8 0).bi = 8 ∧ (at3 .sum 8 0).acc = 0 ∧
    NoResetFor 18 (at3 .sum 8 0) := by
  refine ⟨by decide, rfl, rfl, rfl, by simp [NoResetFor, at3, State.reset]⟩

/-- P3's cycle with one edge of waiting and a failed send; the schedule goes on afterwards. -/
theorem witness_TransmitIsOneSendCycle :
    cfg9.WellFormed ∧ idle9.ph = .idle ∧ idle9.fault = false ∧ (List.replicate 82 start).length = 9 * cfg9.n + 1 ∧
    (∀ x ∈ List.replicate 82 start, x.rst = false) ∧ (∀ x ∈ [Sample.low], x.rst = false ∧ answerOf x = none) ∧
    fail.rst = false ∧ answerOf fail = some false ∧ answerOf both = some true := by
  refine ⟨by decide, rfl, rfl, by simp [cfg9], fun x hx => ?_, by decide, rfl, rfl, rfl⟩
  rw [List.eq_of_mem_replicate hx]; rfl

theorem witness_TransmitElsewhereOrIllFormed :
    (at3 .wait 1 0).ph ≠ .idle ∧ State.reset.ph = .idle ∧
    ¬ (8 ≤ cfg8.n - 1 ∧ cfg8.n ≤ cfg8.payload.length ∧ cfg8.n - 1 ≤ 31) := by decide

/-- A cycle that a reset ends at the second edge. -/
theorem witness_TransmitIsTheRunOfItsMicroSteps :
    let s : State := { idle9 with inputs := [start, rst] }
    s.issue = none ∧ s.ph = .idle ∧ s.sample.rst = false ∧ s.sample.cycleStart = true ∧
    nextHas (exec .transmit s) (fun t => decide (t.ph = .idle)) = true := by
  refine ⟨rfl, rfl, rfl, rfl, by decide +kernel⟩

theorem witness_SendCycleRunsToItsEnd :
    cfg9.WellFormed ∧ idle9.issue = none ∧ idle9.ph = .idle ∧ (List.replicate 81 Sample.low).length = 9 * cfg9.n ∧
    start.cycleStart = true ∧ start.rst = false ∧ (∀ x ∈ List.replicate 81 Sample.low, x.rst = false) ∧
    (∀ x ∈ [start], x.rst = false ∧ answerOf x = none) ∧ done.rst = false ∧ answerOf done = some true := by
  refine ⟨by decide, rfl, rfl, by simp [cfg9], rfl, rfl, fun x hx => ?_, by decide, rfl, rfl⟩
  rw [List.eq_of_mem_replicate hx]; rfl

theorem witness_LeftoverRegistersAreNeverRead : idle9.cfg.WellFormed ∧ idle9.ph = .idle := ⟨by decide, rfl⟩

theorem witness_StepKeepsOnTrack :
    (OnTrack { idle9 with ph := .hdr1 } ∧ nextHas (step { idle9 with ph := .hdr1 }) (fun _ => true) = true) ∧
    (OnTrack wait9 ∧ nextHas (step (seeing done wait9)) (fun _ => true) = true) ∧
    OnTrack { wait9 with ph := .f1, bi := 8, seq := (frame cfg9).take 65 } :=
  ⟨⟨onTrack_hdr1, by decide⟩, ⟨onTrack_wait, by decide +kernel⟩, onTrack_f1_exit⟩

theorem witness_StepKeepsTheHistoryInItsLanguage :
    OnTrack wait9 ∧ HistoryOk wait9 ∧ nextHas (step wait9) (fun _ => true) = true :=
  ⟨onTrack_wait, ⟨[], rfl⟩, by decide +kernel⟩

theorem witness_FaultIsSetOnlyByTheRangeCheck :
    let s : State := seeing start { State.reset with cfg := cfg8 }
    (s.sample.rst = false ∧ s.issue = none ∧ nextHas (step s) (fun t => decide (t.fault ≠ s.fault)) = true) ∧
    nextHas (step { at3 .fault 0 0 with fault := true }) (fun t => t.fault) = true := by
  refine ⟨⟨rfl, rfl, by decide⟩, by decide⟩

theorem witness_EventsOutsideTheirPhaseAreIgnored :
    (at3 .wait 1 0).issue = none ∧ both.rst = false ∧ (at3 .wait 1 0).ph ≠ .idle ∧ (at3 .idle 0 0).ph ≠ .wait ∧
    (at3 .wait 1 0).ph = .wait ∧ both.txDone = true := by decide

theorem witness_FailedSendDiffersOnlyInItsDone : wait9.issue = none ∧ Sample.low.rst = false ∧ wait9.ph = .wait := ⟨rfl, rfl, rfl⟩

theorem witness_WaitsKeepEveryElement :
    (NoResetFor 2 (seeing done (at3 .idle 0 0)) ∧ ∀ x ∈ (seeing done (at3 .idle 0 0)).inputs.take 2, x.cycleStart = false) ∧
    (NoResetFor 2 (seeing start (at3 .wait 1 0)) ∧ ∀ x ∈ (seeing start (at3 .wait 1 0)).inputs.take 2, answerOf x = none) ∧
    NoResetFor 2 (seeing both (at3 .fault 0 0)) ∧ (at3 .fault 0 0).ph = .fault := by
  refine ⟨⟨?_, by decide⟩, ⟨?_, by decide⟩, ?_, rfl⟩ <;> (unfold NoResetFor; decide)

theorem witness_PortsTellWhatTheStepDoes :
    (ports (at3 .hdr1 0 0)).appValid = true ∧ nextHas (step (at3 .hdr1 0 0)) (fun _ => true) = true ∧
    (ports (at3 .sum 8 0)).appValid = false ∧ nextHas (step (at3 .sum 8 0)) (fun _ => true) = true ∧
    (ports (at3 .send 1 0)).send = true := by
  refine ⟨rfl, by decide, rfl, by decide, rfl⟩

end Sys2Proof.Tests
end

/-! SUPPORT. The step at an edge without reset is exec of what it fetches and decodes (R12, R23, R33), and no instruction has
the outcome `refused`: proved row by row, and for TRANSMIT by induction over its micro-steps. -/

namespace Sys2Proof.Machine

/-! ### No meaning refuses -/

theorem encStep_ne_refused (src : Nat → Option Byte) (len stop : Nat) (exit : State → State) (s : State) (r : Refusal) :
    encStep src len stop exit s ≠ .refused r := by
  by_cases hstop : s.bi.toNat = stop
  · simp [encStep_exit hstop]
  · cases hsrc : src s.bi.toNat with
    | none => simp [encStep_absent hstop hsrc]
    | some b => simp [encStep_bit hstop hsrc]

theorem execPhIdle_ne_refused (s : State) (r : Refusal) : execPhIdle s ≠ .refused r := by
  unfold execPhIdle; split <;> simp

theorem execPhSum_ne_refused (s : State) (r : Refusal) : execPhSum s ≠ .refused r := by
  unfold execPhSum
  split
  · simp
  · split <;> simp

theorem execPhWait_ne_refused (s : State) (r : Refusal) : execPhWait s ≠ .refused r := by
  unfold execPhWait; split <;> simp

/-- A phase row is never refused, whatever phase `PH` holds. -/
theorem exec_phase_ne_refused (p : Phase) (s : State) (r : Refusal) : exec p.instr s ≠ .refused r := by
  cases p with
  | idle => exact execPhIdle_ne_refused s r
  | f1 => exact (exec_phF1 s).trans_ne (encStep_ne_refused _ _ _ _ s r)
  | f2 => exact (exec_phF2 s).trans_ne (encStep_ne_refused _ _ _ _ s r)
  | crc => exact (exec_phCrc s).trans_ne (encStep_ne_refused _ _ _ _ s r)
  | sum => exact execPhSum_ne_refused s r
  | wait => exact execPhWait_ne_refused s r
  | hdr1 | pause | hdr2 | endPhase | send | fault => exact nofun

theorem microStep_ne_refused (s : State) (r : Refusal) : microStep s ≠ .refused r := by
  rw [← exec_phase_instr]
  exact exec_phase_ne_refused s.ph s r

/-- A symbol row is its append, which always gives a next state (R52). -/
theorem exec_kind_instr (k : Kind) (s : State) : exec k.instr s = .next (s.append k) := by
  cases k <;> rfl

theorem execChecksum_ne_refused (data : List Byte) (start stop : Nat) (s : State) (r : Refusal) :
    execChecksum data start stop s ≠ .refused r := by
  unfold execChecksum; split <;> simp

theorem execEncodeBits_ne_refused (data : List Byte) (start stop : Nat) (s : State) (r : Refusal) :
    execEncodeBits data start stop s ≠ .refused r := by
  unfold execEncodeBits; split <;> simp

theorem cycleFrom_ne_refused (fuel : Nat) (s : State) (r : Refusal) : cycleFrom fuel s ≠ .refused r := by
  induction fuel generalizing s with
  | zero => simp [cycleFrom]
  | succ fuel ih =>
    unfold cycleFrom
    split
    · simp
    · split
      · simp
      · cases h : microStep s.tick with
        | next t => exact ih t
        | fault q => simp
        | refused q => exact absurd h (microStep_ne_refused s.tick q)

theorem execTransmit_ne_refused (s : State) (r : Refusal) : execTransmit s ≠ .refused r := by
  unfold execTransmit
  split
  · exact cycleFrom_ne_refused _ _ r
  · simp

/-- Every row of the opcode table has a meaning: none is refused. -/
theorem exec_ne_refused (i : Instr) (s : State) (r : Refusal) : exec i s ≠ .refused r := by
  have symbol (k : Kind) : exec k.instr s ≠ .refused r := by simp [exec_kind_instr]
  have phase (p : Phase) : exec p.instr s ≠ .refused r := exec_phase_ne_refused p s r
  cases i with
  | zeroBit => exact symbol .zeroBit
  | oneBit => exact symbol .oneBit
  | header => exact symbol .header
  | pause => exact symbol .pause
  | endSymbol => exact symbol .endSymbol
  | phIdle => exact phase .idle
  | phHdr1 => exact phase .hdr1
  | phF1 => exact phase .f1
  | phPause => exact phase .pause
  | phHdr2 => exact phase .hdr2
  | phF2 => exact phase .f2
  | phSum => exact phase .sum
  | phCrc => exact phase .crc
  | phEnd => exact phase .endPhase
  | phSend => exact phase .send
  | phWait => exact phase .wait
  | phFault => exact phase .fault
  | checksum data start stop => exact execChecksum_ne_refused data start stop s r
  | encodeBits data start stop => exact execEncodeBits_ne_refused data start stop s r
  | transmit => exact execTransmit_ne_refused s r

/-! ### The step is exec of what it fetches -/

/-- An edge without reset that fetches an instruction: the clock edge's outcome from the instruction's. -/
theorem step_of_decode {s : State} {i : Instr} (hr : s.sample.rst = false) (hd : decode s.fetch = .ok i) :
    step s = afterEdge (exec i s) := by
  simp [step, hr, hd]

theorem fetch_of_issue {s : State} {c : Code} (h : s.issue = some c) : s.fetch = c := by
  simp [State.fetch, h]

theorem decode_fetch_of_no_issue {s : State} (h : s.issue = none) : decode s.fetch = .ok s.ph.instr := by
  rw [fetch_of_no_issue h, decode_phaseCode]

/-- Settles O5: the step's outcome is `afterEdge` of exec's, and no row is refused. -/
theorem stepRunsTheDecodedInstruction : Obligations.StepRunsTheDecodedInstruction := by
  refine ⟨fun s i hr hd => ⟨fun t ht => ?_, fun r hf => ?_⟩,
    fun s i => exec_ne_refused i s, fun s => decode_fetch_of_no_issue, fun s c => fetch_of_issue⟩
  · rw [step_of_decode hr hd, ht]
    rfl
  · rw [step_of_decode hr hd, hf, afterEdge_fault]

end Sys2Proof.Machine

/-! SUPPORT. The layer of facts on single micro-steps: who writes which register (R20), the rules of the phases said once
(R123 to R131), and a phase row run while `PH` holds another phase. -/

namespace Sys2Proof.Machine

/-- An edge without reset and without an issued row is a micro-step and the clock edge. -/
theorem step_hardware_cases {s t : State} (hr : s.sample.rst = false) (hi : s.issue = none) (h : step s = .next t) :
    ∃ u, MicroMove s u ∧ t = u.tick := by
  rw [step_of_hardware hr hi] at h
  obtain ⟨u, hu, rfl⟩ := afterEdge_eq_next.mp h
  exact ⟨u, microStep_cases hu, rfl⟩

/-! ### The frame of a micro-step: who writes what (R20) -/

namespace MicroMove

variable {s u : State}

theorem keeps_own (m : MicroMove s u) :
    u.cfg = s.cfg ∧ u.inputs = s.inputs ∧ u.issue = s.issue ∧ u.ret = s.ret ∧ u.clk = s.clk := by
  cases m <;> simp

theorem cfg_eq (m : MicroMove s u) : u.cfg = s.cfg := m.keeps_own.1

/-- Only the failing range check writes `FAULT` and `CAUSE` (R30). -/
theorem fault_eq_or_failFast (m : MicroMove s u) :
    (u.fault = s.fault ∧ u.cause = s.cause) ∨
    (s.ph = .idle ∧ s.sample.cycleStart = true ∧ rangesOk s.cfg = false ∧
      u = s.failFast .preconditionViolation) := by
  cases m with
  | idleFailFast h c ok => exact .inr ⟨h, c, ok, rfl⟩
  | _ => simp

theorem fault_eq (m : MicroMove s u) (hidle : s.ph ≠ .idle) : u.fault = s.fault ∧ u.cause = s.cause :=
  m.fault_eq_or_failFast.resolve_right fun h => hidle h.1

theorem acc_eq (m : MicroMove s u) (hf2 : s.ph ≠ .f2) (hsum : s.ph ≠ .sum) : u.acc = s.acc := by
  cases m with
  | f2Exit h => exact absurd h hf2
  | sumByte h => exact absurd h hsum
  | _ => simp

theorem bi_k_eq (m : MicroMove s u) (hhdr1 : s.ph ≠ .hdr1) (hf1 : s.ph ≠ .f1) (hhdr2 : s.ph ≠ .hdr2)
    (hf2 : s.ph ≠ .f2) (hsum : s.ph ≠ .sum) (hcrc : s.ph ≠ .crc) : u.bi = s.bi ∧ u.k = s.k := by
  cases m with
  | hdr1 h => exact absurd h hhdr1
  | f1Bit h => exact absurd h hf1
  | hdr2 h => exact absurd h hhdr2
  | f2Bit h | f2Exit h => exact absurd h hf2
  | sumByte h | sumExit h => exact absurd h hsum
  | crcBit h => exact absurd h hcrc
  | _ => simp

theorem seq_eq (m : MicroMove s u) (h : s.ph = .sum ∨ s.ph = .send ∨ s.ph = .fault) : u.seq = s.seq := by
  cases m with
  | sumByte | sumExit | send | fault => rfl
  | _ => simp_all

theorem hist_eq (m : MicroMove s u) (h : s.ph = .idle ∨ s.ph = .sum ∨ s.ph = .fault) : u.hist = s.hist := by
  cases m with
  | idleStart | idleFailFast | idleHold | sumByte | sumExit | fault => rfl
  | _ => simp_all

theorem seq_grows (m : MicroMove s u) (hidle : s.ph ≠ .idle) (hwait : s.ph ≠ .wait) :
    s.seq <+: u.seq ∧ u.seq.length ≤ s.seq.length + 1 := by
  cases m with
  | idleStart h => exact absurd h hidle
  | waitDone h => exact absurd h hwait
  | _ => simp

theorem hist_grows (m : MicroMove s u) : s.hist <+: u.hist ∧ u.hist.length ≤ s.hist.length + 1 := by
  cases m <;> simp

end MicroMove

/-! ### The rules of the phases, one equation per case -/

theorem microStep_of_phase {s : State} {p : Phase} (h : s.ph = p) : microStep s = exec p.instr s := by
  rw [← h, exec_phase_instr]

theorem microStep_hdr1 {s : State} (h : s.ph = .hdr1) :
    microStep s = .next (((s.append .header).index 0 0).goto .f1) :=
  microStep_of_phase h

theorem microStep_f1 {s : State} (h : s.ph = .f1) :
    microStep s = encStep (payloadRead s.cfg) s.cfg.n 8 (fun s => s.goto .pause) s :=
  microStep_of_phase h

theorem microStep_pause {s : State} (h : s.ph = .pause) : microStep s = .next ((s.append .pause).goto .hdr2) :=
  microStep_of_phase h

theorem microStep_hdr2 {s : State} (h : s.ph = .hdr2) :
    microStep s = .next (((s.append .header).index 8 0).goto .f2) :=
  microStep_of_phase h

theorem microStep_f2 {s : State} (h : s.ph = .f2) :
    microStep s = encStep (payloadRead s.cfg) s.cfg.n (s.cfg.n - 1) (fun s => (s.sumTo 0 8).goto .sum) s :=
  microStep_of_phase h

theorem execPhIdle_hold {s : State} (h : s.sample.cycleStart = false) : execPhIdle s = .next s := by
  simp [execPhIdle, h]

theorem execPhIdle_start {s : State} (h : s.sample.cycleStart = true) : execPhIdle s = .next s.startCycle :=
  if_pos h

theorem execPhSum_exit {s : State} (h : s.bi.toNat = s.cfg.n - 1) :
    execPhSum s = .next ((s.index 0 0).goto .crc) :=
  if_pos h

theorem execPhSum_byte {s : State} {b : Byte} (h : s.bi.toNat ≠ s.cfg.n - 1)
    (hb : payloadRead s.cfg s.bi.toNat = some b) :
    execPhSum s = .next (s.sumTo (add8 s.acc b) (s.bi + 1)) := by
  simp [execPhSum, Config.bodyEnd, h, hb]

theorem execPhSum_absent {s : State} (h : s.bi.toNat ≠ s.cfg.n - 1) (hb : payloadRead s.cfg s.bi.toNat = none) :
    execPhSum s = .fault (.noSuchByte s.bi.toNat s.cfg.n) := by
  simp [execPhSum, Config.bodyEnd, h, hb]

/-- An appending encoder micro-step written out: the symbol, its event, and the next position (R111). -/
theorem append_advance_eq (s : State) (j : Kind) :
    (s.append j).advance = { s with
      seq := (s.append j).seq
      hist := (s.append j).hist
      bi := if s.k = 7 then s.bi + 1 else s.bi
      k := if s.k = 7 then 0 else s.k + 1 } := by
  by_cases hk : s.k = 7
  · rw [advance_of_last (s := s.append j) hk, if_pos hk, if_pos hk]
    rfl
  · rw [advance_of_not_last (s := s.append j) hk, if_neg hk, if_neg hk]
    rfl

/-! ### A phase row run in any phase -/

theorem encStep_goto {src : Nat → Option Byte} {len stop : Nat} {exit : State → State} {s t : State} {q : Phase}
    (hexit : ∃ r, exit (s.goto q) = (exit s).goto r) (h : encStep src len stop exit s = .next t) :
    ∃ r, encStep src len stop exit (s.goto q) = .next (t.goto r) := by
  rcases encStep_next_cases h with ⟨e, rfl⟩ | ⟨e, b, hb, rfl⟩
  · obtain ⟨r, hr⟩ := hexit
    exact ⟨r, hr ▸ encStep_exit e⟩
  · refine ⟨q, (encStep_bit (s := s.goto q) e hb).trans ?_⟩
    rw [append_advance_eq, append_advance_eq]
    rfl

theorem execPhIdle_goto {s t : State} (q : Phase) (h : execPhIdle s = .next t) :
    ∃ r, execPhIdle (s.goto q) = .next (t.goto r) := by
  cases hc : s.sample.cycleStart with
  | false =>
    cases (execPhIdle_hold hc).symm.trans h
    exact ⟨q, execPhIdle_hold (s := s.goto q) hc⟩
  | true =>
    cases (execPhIdle_start hc).symm.trans h
    rw [execPhIdle_start (s := s.goto q) hc]
    rcases startCycle_cases s with ⟨ok, e⟩ | ⟨ok, e⟩
    · exact ⟨.hdr1, by rw [e, startCycle_of_ok (s := s.goto q) ok]; rfl⟩
    · exact ⟨.fault, by rw [e, startCycle_of_not_ok (s := s.goto q) ok]; rfl⟩

theorem execPhSum_goto {s t : State} (q : Phase) (h : execPhSum s = .next t) :
    ∃ r, execPhSum (s.goto q) = .next (t.goto r) := by
  by_cases e : s.bi.toNat = s.cfg.n - 1
  · cases (execPhSum_exit e).symm.trans h
    exact ⟨.crc, execPhSum_exit (s := s.goto q) e⟩
  · cases hb : payloadRead s.cfg s.bi.toNat with
    | none => cases (execPhSum_absent e hb).symm.trans h
    | some b =>
      cases (execPhSum_byte e hb).symm.trans h
      exact ⟨q, execPhSum_byte (s := s.goto q) e hb⟩

theorem execPhWait_goto {s t : State} (q : Phase) (h : execPhWait s = .next t) :
    ∃ r, execPhWait (s.goto q) = .next (t.goto r) := by
  simp only [execPhWait, show (s.goto q).sample = s.sample from rfl] at h ⊢
  split at h
  · cases h; exact ⟨.idle, rfl⟩
  · cases h; exact ⟨q, rfl⟩

/-- A phase row does not look at `PH`: from another value of it the row moves to the same state but for `PH`. -/
theorem exec_phase_goto {p : Phase} {s t : State} (q : Phase) (h : exec p.instr s = .next t) :
    ∃ r, exec p.instr (s.goto q) = .next (t.goto r) := by
  cases p with
  | hdr1 | pause | hdr2 | endPhase | send | fault => cases h; exact ⟨_, rfl⟩
  | f1 => exact encStep_goto ⟨.pause, rfl⟩ ((exec_phF1 s).symm.trans h)
  | f2 => exact encStep_goto ⟨.sum, rfl⟩ ((exec_phF2 s).symm.trans h)
  | crc => exact encStep_goto ⟨.endPhase, rfl⟩ ((exec_phCrc s).symm.trans h)
  | idle => exact execPhIdle_goto q h
  | sum => exact execPhSum_goto q h
  | wait => exact execPhWait_goto q h

/-- Everything a phase row can do, whatever phase `PH` holds: the micro-step of its phase, but for `PH`. -/
theorem exec_phase_cases {p : Phase} {s t : State} (h : exec p.instr s = .next t) :
    ∃ u r, MicroMove (s.goto p) u ∧ t = u.goto r := by
  obtain ⟨r, hr⟩ := exec_phase_goto p h
  exact ⟨t.goto r, t.ph, microStep_cases ((exec_phase_instr (s.goto p)).symm.trans hr), rfl⟩

end Sys2Proof.Machine

/-! SUPPORT. What the rows of the opcode table leave unchanged, by group of rows: symbols, phases, operations (O16, O17). -/

namespace Sys2Proof.Machine

/-- Every row is that of a symbol, of a phase, or of an operation (R81). -/
theorem instr_group (i : Instr) :
    (∃ k : Kind, i = k.instr) ∨ (∃ p : Phase, i = p.instr) ∨ ∃ op : Call, i = instrOfCall op := by
  cases i with
  | zeroBit => exact .inl ⟨.zeroBit, rfl⟩
  | oneBit => exact .inl ⟨.oneBit, rfl⟩
  | header => exact .inl ⟨.header, rfl⟩
  | pause => exact .inl ⟨.pause, rfl⟩
  | endSymbol => exact .inl ⟨.endSymbol, rfl⟩
  | phIdle => exact .inr (.inl ⟨.idle, rfl⟩)
  | phHdr1 => exact .inr (.inl ⟨.hdr1, rfl⟩)
  | phF1 => exact .inr (.inl ⟨.f1, rfl⟩)
  | phPause => exact .inr (.inl ⟨.pause, rfl⟩)
  | phHdr2 => exact .inr (.inl ⟨.hdr2, rfl⟩)
  | phF2 => exact .inr (.inl ⟨.f2, rfl⟩)
  | phSum => exact .inr (.inl ⟨.sum, rfl⟩)
  | phCrc => exact .inr (.inl ⟨.crc, rfl⟩)
  | phEnd => exact .inr (.inl ⟨.endPhase, rfl⟩)
  | phSend => exact .inr (.inl ⟨.send, rfl⟩)
  | phWait => exact .inr (.inl ⟨.wait, rfl⟩)
  | phFault => exact .inr (.inl ⟨.fault, rfl⟩)
  | checksum data start stop => exact .inr (.inr ⟨.checksum data start stop, rfl⟩)
  | encodeBits data start stop => exact .inr (.inr ⟨.encodeBits data start stop, rfl⟩)
  | transmit => exact .inr (.inr ⟨.transmit, rfl⟩)

theorem encode_phase_instr (p : Phase) : encode p.instr = .phase (phaseCode p) := by
  cases p <;> rfl

theorem encode_kind_instr (k : Kind) : encode k.instr = .symbol (kindWord k) := by
  cases k <;> rfl

theorem phaseInPH_phaseCode (p : Phase) : phaseInPH (phaseCode p) = p := by
  cases p <;> rfl

/-- Two phases have two rows: the row's code gives the phase back. -/
theorem phase_instr_injective : Function.Injective Phase.instr := by
  intro p q h
  have hcode : phaseCode p = phaseCode q := by simpa [encode_phase_instr] using congrArg encode h
  rw [← phaseInPH_phaseCode p, hcode, phaseInPH_phaseCode]

/-- No phase row is a symbol row: the one is encoded in 4 bits, the other in 32. -/
theorem phase_instr_ne_kind_instr (p : Phase) (k : Kind) : p.instr ≠ k.instr := by
  intro h
  simpa [encode_phase_instr, encode_kind_instr] using congrArg encode h

/-- Settles O16: a symbol row is its append, and a phase row is the micro-step of its phase but for `PH`. -/
theorem phaseAndSymbolRowsKeepTheRest : Obligations.PhaseAndSymbolRowsKeepTheRest := by
  intro i s t hsum henc htr h
  rcases instr_group i with ⟨k, rfl⟩ | ⟨p, rfl⟩ | ⟨op, rfl⟩
  · obtain rfl : s.append k = t := by simpa [exec_kind_instr] using h
    have hne (p : Phase) : k.instr ≠ p.instr := (phase_instr_ne_kind_instr p k).symm
    refine ⟨fun _ _ => rfl, fun _ _ _ _ _ _ => ⟨rfl, rfl⟩, fun _ => ⟨rfl, rfl⟩, fun hi => ?_, fun hi => ?_,
      fun _ _ => ⟨List.prefix_append _ _, by simp⟩, ⟨List.prefix_append _ _, by simp⟩, fun _ => rfl,
      rfl, rfl, rfl, rfl, rfl, fun _ => rfl⟩
    · rcases hi with hi | hi | hi
      exacts [absurd hi (hne .sum), absurd hi (hne .send), absurd hi (hne .fault)]
    · rcases hi with hi | hi | hi
      exacts [absurd hi (hne .idle), absurd hi (hne .sum), absurd hi (hne .fault)]
  · obtain ⟨u, r, m, rfl⟩ := exec_phase_cases h
    obtain ⟨hcfg, hinputs, hissue, hret, hclk⟩ := m.keeps_own
    have other {q : Phase} (hi : p.instr ≠ q.instr) : p ≠ q := ne_of_apply_ne Phase.instr hi
    have same {q : Phase} (hi : p.instr = q.instr) : p = q := phase_instr_injective hi
    refine ⟨fun hf2 hsum => m.acc_eq (other hf2) (other hsum),
      fun h1 hf1 h2 hf2 hsum hcrc =>
        m.bi_k_eq (other h1) (other hf1) (other h2) (other hf2) (other hsum) (other hcrc),
      fun hidle => m.fault_eq (other hidle),
      fun hi => m.seq_eq (hi.imp same (Or.imp same same)), fun hi => m.hist_eq (hi.imp same (Or.imp same same)),
      fun hidle hwait => m.seq_grows (other hidle) (other hwait), m.hist_grows,
      fun ⟨k, hk⟩ => absurd hk (phase_instr_ne_kind_instr p k),
      hcfg, hinputs, hissue, hret, hclk, fun a => congrArg (payloadRead · a) hcfg⟩
  · cases op with
    | checksum data start stop => exact absurd rfl (hsum data start stop)
    | encodeBits data start stop => exact absurd rfl (henc data start stop)
    | transmit => exact absurd rfl htr

/-! ### No instruction writes the stores -/

theorem cycleFrom_cfg {fuel : Nat} {s t : State} (h : cycleFrom fuel s = .next t) : t.cfg = s.cfg := by
  induction fuel generalizing s with
  | zero => cases h; rfl
  | succ fuel ih =>
    unfold cycleFrom at h
    split at h
    · cases h; rfl
    · split at h
      · cases h; rfl
      · cases hm : microStep s.tick with
        | next u =>
          rw [hm] at h
          exact (ih h).trans (microStep_cases hm).cfg_eq
        | fault r | refused r => simp [hm] at h

theorem execTransmit_cfg {s t : State} (h : execTransmit s = .next t) : t.cfg = s.cfg := by
  unfold execTransmit at h
  split at h
  · exact (cycleFrom_cfg h).trans (startCycle_cfg s)
  · cases h; rfl

theorem execChecksum_cfg {data : List Byte} {start stop : Nat} {s t : State}
    (h : execChecksum data start stop s = .next t) : t.cfg = s.cfg := by
  unfold execChecksum at h
  split at h <;> cases h
  rfl

theorem execEncodeBits_cfg {data : List Byte} {start stop : Nat} {s t : State}
    (h : execEncodeBits data start stop s = .next t) : t.cfg = s.cfg := by
  unfold execEncodeBits at h
  split at h <;> cases h
  rfl

/-- No instruction writes the configuration (R50, R51). -/
theorem exec_cfg {i : Instr} {s t : State} (h : exec i s = .next t) : t.cfg = s.cfg := by
  rcases instr_group i with ⟨k, rfl⟩ | ⟨p, rfl⟩ | ⟨op, rfl⟩
  · obtain rfl : s.append k = t := by simpa [exec_kind_instr] using h
    rfl
  · obtain ⟨u, r, m, rfl⟩ := exec_phase_cases h
    exact m.cfg_eq
  · cases op with
    | checksum data start stop => exact execChecksum_cfg h
    | encodeBits data start stop => exact execEncodeBits_cfg h
    | transmit => exact execTransmit_cfg h

/-- Settles O17: the stores stand in the configuration, which no instruction writes. -/
theorem noInstructionWritesTheStores : Obligations.NoInstructionWritesTheStores := by
  intro i s t h
  have hcfg := exec_cfg h
  exact ⟨hcfg, fun a => congrArg (payloadRead · a) hcfg, fun k => congrArg (symbolOf ·.symtab k) hcfg⟩

end Sys2Proof.Machine

/-! SUPPORT. The layout of `FRAME(PAYLOAD)` (R58, R121): its length and the symbol at each position. -/

namespace Sys2Proof.Machine

open Sys2Proof.Safety

theorem encodeBytes_cons (t : SymTab) (b : Byte) (l : List Byte) :
    encodeBytes t (b :: l) = encodeByte t b ++ encodeBytes t l := by
  simp [encodeBytes]

/-- The encoder's output position by position (R112). -/
theorem encodeBytes_getElem? (t : SymTab) {l : List Byte} {i k : Nat} {b : Byte} (hb : l[i]? = some b) (hk : k < 8) :
    (encodeBytes t l)[8 * i + k]? = some (bitsym t b k) := by
  induction l generalizing i with
  | nil => simp at hb
  | cons x l ih =>
    rw [encodeBytes_cons]
    cases i with
    | zero =>
      obtain rfl : x = b := by simpa using hb
      rw [List.getElem?_append_left (by simp; omega), Nat.mul_zero, Nat.zero_add, encodeByte_getElem? t x hk]
    | succ i =>
      rw [List.getElem?_append_right (by simp; omega), encodeByte_length,
        show 8 * (i + 1) + k - 8 = 8 * i + k by omega]
      exact ih (by simpa using hb)

theorem getElem?_append_mid {α : Type} {pre mid : List α} {n j : Nat} {x : α} (post : List α)
    (hn : pre.length = n) (hx : mid[j]? = some x) : (pre ++ mid ++ post)[n + j]? = some x := by
  obtain ⟨hj, -⟩ := List.getElem?_eq_some_iff.mp hx
  rw [List.getElem?_append_left (by simp; omega), List.getElem?_append_right (by omega), hn,
    Nat.add_sub_cancel_left, hx]

theorem frame_getElem?_header (c : Config) : (frame c)[0]? = some c.symtab.header := by simp [frame]

theorem frame_getElem?_f1 {c : Config} {i k : Nat} {b : Byte} (hi : i < 8) (hk : k < 8) (hb : c.payload[i]? = some b) :
    (frame c)[1 + 8 * i + k]? = some (bitsym c.symtab b k) := by
  have hs : (slice c.payload 0 Config.f1Len)[i]? = some b := by
    rw [slice_getElem?, if_pos (by unfold Config.f1Len; omega), Nat.zero_add, hb]
  simp only [frame, List.append_assoc, Nat.add_assoc]
  rw [← List.append_assoc]
  exact getElem?_append_mid _ rfl (encodeBytes_getElem? c.symtab hs hk)

section
variable {c : Config} (hc : c.WellFormed)
include hc

theorem frame1_length : (encodeBytes c.symtab (slice c.payload 0 Config.f1Len)).length = 64 := by
  obtain ⟨-, h9, -, hlen, -⟩ := hc
  rw [encodeBytes_length, slice_length (by unfold Config.f1Len; omega)]
  rfl

theorem body_length : (encodeBytes c.symtab (slice c.payload Config.bodyStart c.bodyEnd)).length = bodyBits c := by
  obtain ⟨-, h9, -, hlen, -⟩ := hc
  rw [encodeBytes_length, slice_length (by unfold Config.bodyEnd; omega)]
  simp only [Config.bodyStart, Config.f1Len, Config.bodyEnd, bodyBits]
  omega

theorem frame_length : (frame c).length = 76 + bodyBits c := by
  simp [frame, frame1_length hc, body_length hc]
  omega

theorem frame_getElem?_pause : (frame c)[65]? = some c.symtab.pause := by
  simp [frame, frame1_length hc]

theorem frame_getElem?_header2 : (frame c)[66]? = some c.symtab.header := by
  simp [frame, List.getElem?_append_right, frame1_length hc]

theorem frame_getElem?_body {i k : Nat} {b : Byte} (h8 : 8 ≤ i) (hi : i < c.n - 1) (hk : k < 8)
    (hb : c.payload[i]? = some b) : (frame c)[67 + 8 * (i - 8) + k]? = some (bitsym c.symtab b k) := by
  have hs : (slice c.payload Config.bodyStart c.bodyEnd)[i - 8]? = some b := by
    have h8i : Config.bodyStart + (i - 8) = i := by unfold Config.bodyStart Config.f1Len; omega
    rw [slice_getElem?, h8i, if_pos (by exact hi), hb]
  rw [frame, List.append_assoc, Nat.add_assoc]
  exact getElem?_append_mid _ (by simp [frame1_length hc]) (encodeBytes_getElem? c.symtab hs hk)

theorem frame_getElem?_crc {k : Nat} (hk : k < 8) :
    (frame c)[67 + bodyBits c + k]? = some (bitsym c.symtab (crcOf c) k) := by
  rw [frame, encodeBytes_single]
  exact getElem?_append_mid _ (by simp [frame1_length hc, body_length hc]; omega) (encodeByte_getElem? c.symtab _ hk)

theorem frame_getElem?_end : (frame c)[75 + bodyBits c]? = some c.symtab.endSymbol := by
  have hlen := frame_length hc
  rw [frame, List.length_append, List.length_singleton] at hlen
  rw [frame, List.getElem?_append_right (by omega), List.getElem?_singleton, if_pos (by omega)]

end

end Sys2Proof.Machine

/-! SUPPORT. The table of R37 is kept by every step (O33), and reset is in it (O34). A micro-step moves from a row of the table
to a row, and keeps `SEQ` a beginning of the frame; a reset leads to the table's first row. -/

namespace Sys2Proof.Machine

open Sys2Proof.Safety

/-- The beginning of a list, continued by the list's next element, is a beginning of it. -/
theorem isPrefix_concat {α : Type} {l m : List α} {x : α} (h : l <+: m) (hx : m[l.length]? = some x) : l ++ [x] <+: m := by
  obtain ⟨hl, rfl⟩ := List.getElem?_eq_some_iff.mp hx
  exact List.concat_get_prefix h hl

/-- An appending encoder micro-step moves the position `(BI, K)`, counted in bits, by one, and `K` is 0 where `BI` moves
(R111). -/
theorem append_advance_position {s : State} (j : Kind) (h : s.bi.toNat < 31) :
    8 * (s.append j).advance.bi.toNat + (s.append j).advance.k.toNat = 8 * s.bi.toNat + s.k.toNat + 1 ∧
    ((s.append j).advance.bi.toNat = s.bi.toNat ∨
      (s.append j).advance.bi.toNat = s.bi.toNat + 1 ∧ (s.append j).advance.k = 0) := by
  by_cases hk : s.k = 7
  · rw [advance_of_last (s := s.append j) hk]
    simp [hk]
    omega
  · rw [advance_of_not_last (s := s.append j) hk]
    simp
    bv_omega

theorem append_advance_seq_length (s : State) (j : Kind) : (s.append j).advance.seq.length = s.seq.length + 1 := by
  simp

theorem rangesOk_of_wellFormed {c : Config} (hc : c.WellFormed) : rangesOk c = true := by
  obtain ⟨-, h9, h32, hlen, -⟩ := hc
  exact (rangesOk_iff c).mpr (by omega)

/-- On the table of R37 a micro-step keeps `SEQ`, empties it, or appends the frame's next symbol. -/
theorem seq_of_move {s u : State} (hs : OnTrack s) (m : MicroMove s u) : u.seq <+: frame s.cfg := by
  obtain ⟨hc, -, -, -, hp, hq⟩ := hs
  have hk : s.k.toNat < 8 := s.k.isLt
  have append {x : TimedSymbol} (h : (frame s.cfg)[s.seq.length]? = some x) := isPrefix_concat hq h
  cases m with
  | idleStart | waitDone => exact List.nil_prefix
  | idleFailFast | idleHold | f1Exit | f2Exit | sumByte | sumExit | crcExit | send | waitHold | fault => exact hq
  | hdr1 h =>
    simp only [Position, h] at hp
    exact append (hp ▸ frame_getElem?_header s.cfg)
  | pause h =>
    simp only [Position, h] at hp
    obtain ⟨-, -, hlen⟩ := hp
    exact append (hlen ▸ frame_getElem?_pause hc)
  | hdr2 h =>
    simp only [Position, h] at hp
    obtain ⟨-, -, hlen⟩ := hp
    exact append (hlen ▸ frame_getElem?_header2 hc)
  | endPhase h =>
    simp only [Position, h] at hp
    obtain ⟨-, -, -, hlen⟩ := hp
    exact append (hlen ▸ frame_getElem?_end hc)
  | f1Bit h e b r =>
    simp only [Position, h] at hp
    obtain ⟨hb8, -, hlen⟩ := hp
    rw [payloadRead_of_lt (by omega)] at r
    rw [State.advance_seq]
    exact append (hlen ▸ frame_getElem?_f1 (by omega) hk r)
  | f2Bit h e b r =>
    simp only [Position, h] at hp
    obtain ⟨hb8, hbn, -, hlen⟩ := hp
    rw [payloadRead_of_lt (by omega)] at r
    rw [State.advance_seq]
    exact append (hlen ▸ frame_getElem?_body hc hb8 (by omega) hk r)
  | crcBit h e =>
    simp only [Position, h, e] at hp
    obtain ⟨-, -, hacc, hlen⟩ := hp
    rw [State.advance_seq, hacc]
    exact append (hlen ▸ frame_getElem?_crc hc hk)

/-- A micro-step leads from a row of R37's table to a row of it. -/
theorem position_of_move {s u : State} (hc : s.cfg.WellFormed) (hp : Position s) (m : MicroMove s u) : Position u := by
  have hok := rangesOk_of_wellFormed hc
  obtain ⟨-, h9, h32, -, -⟩ := hc
  cases m with
  | idleStart | waitDone => simp [Position]
  | idleFailFast _ _ ok => simp [hok] at ok
  | idleHold | waitHold => exact hp
  | fault h => simp [Position, h] at hp
  | hdr1 h | pause h | send h =>
    simp only [Position, h] at hp
    simp [Position, hp]
  | hdr2 h | endPhase h =>
    simp only [Position, h] at hp
    simp [Position, hp]
    omega
  | f1Exit h e =>
    simp only [Position, h] at hp
    obtain ⟨-, hk, hlen⟩ := hp
    simp [Position, hlen, hk e, BitVec.toNat_eq, e]
  | f2Exit h e =>
    simp only [Position, h] at hp
    obtain ⟨-, -, hk, hlen⟩ := hp
    simp [Position, hlen, hk e, e, slice_self, bodyBits]
    omega
  | sumExit h e =>
    simp only [Position, h] at hp
    obtain ⟨-, -, -, hacc, hlen⟩ := hp
    simp [Position, hlen, hacc, e, crcOf, Config.bodyStart, Config.f1Len, Config.bodyEnd]
  | crcExit h e =>
    simp only [Position, h] at hp
    obtain ⟨-, hk, hacc, hlen⟩ := hp
    simp [Position, hlen, hk e, hacc, BitVec.toNat_eq, e]
    omega
  | sumByte h e b r =>
    simp only [Position, h] at hp
    obtain ⟨hb8, hbn, hk, hacc, hlen⟩ := hp
    rw [payloadRead_of_lt (by omega)] at r
    have hbi : (s.bi + 1).toNat = s.bi.toNat + 1 := by bv_omega
    have hsum : add8 s.acc b = sumBytes (slice s.cfg.payload 8 (s.bi.toNat + 1)) := by
      rw [slice_succ hb8 r, sumBytes_append, sumBytes_single, add8_eq, hacc]
    simp only [Position, State.sumTo_ph, h, State.sumTo_bi, hbi, State.sumTo_cfg, State.sumTo_acc]
    exact ⟨by omega, by omega, hk, hsum, hlen⟩
  | f1Bit h e b r =>
    simp only [Position, h] at hp
    obtain ⟨hb8, -, hlen⟩ := hp
    obtain ⟨hpos, hbi⟩ := append_advance_position (bitKind b s.k.toNat) (s := s) (by omega)
    simp only [Position, State.advance_ph, State.append_ph, h]
    refine ⟨by omega, fun h8 => ?_, ?_⟩
    · exact (hbi.resolve_left (by omega)).2
    · rw [append_advance_seq_length]
      omega
  | f2Bit h e b r =>
    simp only [Position, h] at hp
    obtain ⟨hb8, hbn, -, hlen⟩ := hp
    obtain ⟨hpos, hbi⟩ := append_advance_position (bitKind b s.k.toNat) (s := s) (by omega)
    simp only [Position, State.advance_ph, State.append_ph, h, State.advance_cfg, State.append_cfg]
    refine ⟨by omega, by omega, fun hn => ?_, ?_⟩
    · exact (hbi.resolve_left (by omega)).2
    · rw [append_advance_seq_length]
      omega
  | crcBit h e =>
    simp only [Position, h] at hp
    obtain ⟨-, -, hacc, hlen⟩ := hp
    obtain ⟨hpos, hbi⟩ := append_advance_position (bitKind s.acc s.k.toNat) (s := s) (by omega)
    simp only [Position, State.advance_ph, State.append_ph, h, State.advance_cfg, State.append_cfg]
    refine ⟨by omega, fun h1 => ?_, by simpa using hacc, ?_⟩
    · exact (hbi.resolve_left (by omega)).2
    · rw [append_advance_seq_length]
      omega

/-- Settles O33: a reset leads to the first row, and a hardware edge is a micro-step on the table. -/
theorem stepKeepsOnTrack : Obligations.StepKeepsOnTrack := by
  intro s t hs ht
  cases hr : s.sample.rst with
  | true =>
    obtain rfl : s.cleared.tick = t := by simpa [step_of_reset hr] using ht
    exact ⟨hs.config, rfl, rfl, rfl, rfl, List.nil_prefix⟩
  | false =>
    obtain ⟨u, m, rfl⟩ := step_hardware_cases hr hs.noIssue ht
    have hok := rangesOk_of_wellFormed hs.config
    obtain ⟨hfault, hcause⟩ : u.fault = s.fault ∧ u.cause = s.cause := by
      simpa [hok] using m.fault_eq_or_failFast
    exact ⟨by simpa [m.cfg_eq] using hs.config, rfl, hfault.trans hs.noFault, hcause.trans hs.noCause,
      (position_of_move hs.config hs.position m : Position u), by simpa [m.cfg_eq] using seq_of_move hs m⟩

/-- Settles O34: the reference build is well formed, and `SEQ` and `HIST` are empty. -/
theorem resetIsOnTrack : Obligations.ResetIsOnTrack :=
  ⟨⟨by decide, rfl, rfl, rfl, rfl, List.nil_prefix⟩, [], rfl⟩

end Sys2Proof.Machine

/-! SUPPORT. What a hardware edge does to `ST`, `FAULT` and `CAUSE`, and to the stop (O38, O39, O6), each read off the moves
of a micro-step. -/

namespace Sys2Proof.Machine

/-- Settles O38: `ST` is read from `PH` alone, which no appending encoder micro-step moves out of its phase. -/
theorem driverStateMovesOnlyOnItsEvents : Obligations.DriverStateMovesOnlyOnItsEvents := by
  intro s t hr hi h
  obtain ⟨u, m, rfl⟩ := step_hardware_cases hr hi h
  cases m with
  | idleStart hp hc ok => exact .inr (.inl ⟨by simp [State.st, hp], rfl, hc, ok⟩)
  | idleFailFast hp hc ok => exact .inr (.inr (.inr ⟨by simp [State.st, hp], rfl, hc, ok⟩))
  | waitDone hp ok ha => exact .inr (.inr (.inl ⟨by simp [State.st, hp], rfl, hp, by simp [ha]⟩))
  | idleHold hp | waitHold hp | fault hp => exact .inl rfl
  | f1Bit hp | f2Bit hp | crcBit hp => exact .inl (by simp [State.st])
  | hdr1 hp | f1Exit hp | pause hp | hdr2 hp | f2Exit hp | sumByte hp | sumExit hp | crcExit hp | endPhase hp
  | send hp =>
    exact .inl (by simp [State.st, hp])

/-- Settles O39: the failing range check alone writes the two registers, and sets `FAULT`. -/
theorem faultIsSetOnlyByTheRangeCheck : Obligations.FaultIsSetOnlyByTheRangeCheck := by
  intro s t hr hi h
  obtain ⟨u, m, rfl⟩ := step_hardware_cases hr hi h
  rcases m.fault_eq_or_failFast with ⟨hf, hc⟩ | ⟨hp, hc, ok, rfl⟩
  · exact ⟨fun hne => hne.elim (absurd hf) (absurd hc), hf.trans⟩
  · exact ⟨fun _ => ⟨hp, hc, ok, rfl, rfl, rfl, rfl, rfl⟩, fun _ => rfl⟩

/-- Nothing moves in the stop (R136). -/
theorem MicroMove.eq_of_fault {s u : State} (m : MicroMove s u) (h : s.ph = .fault) : u = s := by
  cases m with
  | fault => rfl
  | _ => simp_all

/-- Settles O6: the reset values by evaluation, a raised reset by the step's rule, the stop by its one move. -/
theorem resetPutsEveryElementAtItsValue : Obligations.ResetPutsEveryElementAtItsValue := by
  refine ⟨⟨rfl, rfl, rfl, rfl, rfl, rfl, rfl, rfl, rfl, rfl, rfl⟩, ⟨rfl, rfl, rfl, rfl, rfl⟩,
    fun s hr => step_of_reset hr, fun s t hr hi hp h => ?_⟩
  obtain ⟨u, m, rfl⟩ := step_hardware_cases hr hi h
  obtain rfl := m.eq_of_fault hp
  exact ⟨hp, rfl, rfl, rfl, rfl⟩

end Sys2Proof.Machine

/-! SUPPORT. An event outside the phase that looks at it makes no difference (O40): an edge depends on its sample only through
`rst`, in `PH_IDLE` `cycle_start`, and in `PH_WAIT` the answer. -/

namespace Sys2Proof.Machine

/-- `s` with the sample `x` at the coming edge and `rest` after it. -/
def State.sees (s : State) (x : Sample) (rest : List Sample) : State := { s with inputs := x :: rest }

/-- An encoder micro-step looks at no input port. -/
theorem encStep_sees (src : Nat → Option Byte) (len stop : Nat) (exit : State → State) (s : State) (x y : Sample)
    (rest : List Sample) (hexit : (exit (s.sees x rest)).tick = (exit (s.sees y rest)).tick) :
    afterEdge (encStep src len stop exit (s.sees x rest)) = afterEdge (encStep src len stop exit (s.sees y rest)) := by
  by_cases e : s.bi.toNat = stop
  · rw [encStep_exit (s := s.sees x rest) e, encStep_exit (s := s.sees y rest) e, afterEdge_next, afterEdge_next,
      hexit]
  · cases hb : src s.bi.toNat with
    | none =>
      rw [encStep_absent (s := s.sees x rest) e hb, encStep_absent (s := s.sees y rest) e hb]
      rfl
    | some b =>
      rw [encStep_bit (s := s.sees x rest) e hb, encStep_bit (s := s.sees y rest) e hb, append_advance_eq,
        append_advance_eq]
      rfl

theorem execPhSum_sees (s : State) (x y : Sample) (rest : List Sample) :
    afterEdge (execPhSum (s.sees x rest)) = afterEdge (execPhSum (s.sees y rest)) := by
  by_cases e : s.bi.toNat = s.cfg.n - 1
  · rw [execPhSum_exit (s := s.sees x rest) e, execPhSum_exit (s := s.sees y rest) e]
    rfl
  · cases hb : payloadRead s.cfg s.bi.toNat with
    | none =>
      rw [execPhSum_absent (s := s.sees x rest) e hb, execPhSum_absent (s := s.sees y rest) e hb]
      rfl
    | some b =>
      rw [execPhSum_byte (s := s.sees x rest) e hb, execPhSum_byte (s := s.sees y rest) e hb]
      rfl

/-- Two samples are the same to a hardware edge when they agree in what its phase looks at (R33, R159). -/
theorem step_sees_eq {s : State} {x y : Sample} (rest : List Sample) (hi : s.issue = none)
    (hx : x.rst = false) (hy : y.rst = false) (hidle : s.ph = .idle → x.cycleStart = y.cycleStart)
    (hwait : s.ph = .wait → answerOf x = answerOf y) : step (s.sees x rest) = step (s.sees y rest) := by
  have hsample (z : Sample) : (s.sees z rest).sample = z := rfl
  have hph (z : Sample) : (s.sees z rest).ph = s.ph := rfl
  rw [step_of_hardware (s := s.sees x rest) hx hi, step_of_hardware (s := s.sees y rest) hy hi]
  unfold microStep
  rw [hph, hph]
  cases hp : s.ph with
  | idle =>
    simp only [execPhIdle, hsample, hidle hp]
    split
    · rcases startCycle_cases s with ⟨ok, -⟩ | ⟨ok, -⟩
      · rw [startCycle_of_ok (s := s.sees x rest) ok, startCycle_of_ok (s := s.sees y rest) ok]
        rfl
      · rw [startCycle_of_not_ok (s := s.sees x rest) ok, startCycle_of_not_ok (s := s.sees y rest) ok]
        rfl
    · rfl
  | wait =>
    simp only [execPhWait, hsample, hwait hp]
    split <;> rfl
  | f1 | f2 | crc => exact encStep_sees _ _ _ _ s x y rest rfl
  | sum => exact execPhSum_sees s x y rest
  | hdr1 | pause | hdr2 | endPhase | send | fault => rfl

/-- Settles O40: in each clause the two samples agree in what the phase looks at. -/
theorem eventsOutsideTheirPhaseAreIgnored : Obligations.EventsOutsideTheirPhaseAreIgnored := by
  intro s x rest u v w hi hx
  refine ⟨fun hp => ?_, fun hp => ?_, fun hp hd => ?_⟩
  · exact step_sees_eq rest hi hx hx (absurd · hp) (fun _ => rfl)
  · exact step_sees_eq rest hi hx hx (fun _ => rfl) (absurd · hp)
  · exact step_sees_eq rest hi hx hx (fun _ => rfl) (fun _ => by simp [answerOf, hd])

end Sys2Proof.Machine

/-! SUPPORT. The output ports tell what the step does (O43). -/

namespace Sys2Proof.Machine

theorem encoderOffer_bit {src : Nat → Option Byte} {stop : Nat} {s : State} {b : Byte} (e : s.bi.toNat ≠ stop)
    (hb : src s.bi.toNat = some b) : encoderOffer src stop s = some (bitKind b s.k.toNat) := by
  simp [encoderOffer, e, hb]

theorem encoderOffer_end {src : Nat → Option Byte} {stop : Nat} {s : State} (e : s.bi.toNat = stop) :
    encoderOffer src stop s = none := if_pos e

theorem mux_f1 {s : State} (h : s.ph = .f1) : mux s = encoderOffer (payloadRead s.cfg) 8 s := by
  simp only [mux, h]
  rfl

theorem mux_f2 {s : State} (h : s.ph = .f2) : mux s = encoderOffer (payloadRead s.cfg) (s.cfg.n - 1) s := by
  simp only [mux, h]
  rfl

theorem mux_crc {s : State} (h : s.ph = .crc) : mux s = encoderOffer (oneByte s.acc) 1 s := by
  simp only [mux, h]

/-- A micro-step appends the kind the multiplexer selects, and no symbol where it selects none (R122). -/
theorem MicroMove.appends_mux {s u : State} (m : MicroMove s u) :
    (∃ k, mux s = some k ∧ u.seq = (s.append k).seq ∧ u.hist = (s.append k).hist) ∨
    (mux s = none ∧ (u.seq = s.seq ∨ u.seq = []) ∧ ∀ x y, u.hist ≠ s.hist ++ [.append x y]) := by
  cases m with
  | hdr1 h | pause h | hdr2 h | endPhase h => exact .inl ⟨_, by simp only [mux, h], rfl, rfl⟩
  | f1Bit h e b r => exact .inl ⟨_, (mux_f1 h).trans (encoderOffer_bit e r), by simp, by simp⟩
  | f2Bit h e b r => exact .inl ⟨_, (mux_f2 h).trans (encoderOffer_bit e r), by simp, by simp⟩
  | crcBit h e =>
    have hacc : oneByte s.acc s.bi.toNat = some s.acc := oneByte_eq_some.mpr ⟨e, rfl⟩
    exact .inl ⟨_, (mux_crc h).trans (encoderOffer_bit (by omega) hacc), by simp, by simp⟩
  | f1Exit h e => exact .inr ⟨(mux_f1 h).trans (encoderOffer_end e), .inl rfl, by simp⟩
  | f2Exit h e => exact .inr ⟨(mux_f2 h).trans (encoderOffer_end e), .inl rfl, by simp⟩
  | crcExit h e => exact .inr ⟨(mux_crc h).trans (encoderOffer_end e), .inl rfl, by simp⟩
  | idleStart h | waitDone h => exact .inr ⟨by simp only [mux, h], .inr rfl, by simp⟩
  | idleHold h | idleFailFast h | sumByte h | sumExit h | send h | waitHold h | fault h =>
    exact .inr ⟨by simp only [mux, h], .inl rfl, by simp⟩

/-- The event `Send` is issued in `PH_SEND` and in no other phase (R133). -/
theorem MicroMove.hist_send_iff {s u : State} (m : MicroMove s u) : s.ph = .send ↔ u.hist = s.hist ++ [.send] := by
  cases m with
  | send h => exact iff_of_true h rfl
  | _ => simp_all

theorem st_sending_iff (s : State) :
    s.st = some .sending ↔ 1 ≤ (phaseCode s.ph).toNat ∧ (phaseCode s.ph).toNat ≤ 10 := by
  cases h : s.ph <;> simp [State.st, h, phaseCode]

/-- Settles O43: the ports show what the multiplexer selects, which is what the micro-step appends. -/
theorem portsTellWhatTheStepDoes : Obligations.PortsTellWhatTheStepDoes := by
  intro s t hr hi h
  obtain ⟨u, m, rfl⟩ := step_hardware_cases hr hi h
  have hsend : (ports s).send = true ↔ u.hist = s.hist ++ [.send] := by
    simp [ports, hr, m.hist_send_iff]
  have hbusy : (ports s).busy = true ↔ 1 ≤ (phaseCode s.ph).toNat ∧ (phaseCode s.ph).toNat ≤ 10 := by
    simp [ports, st_sending_iff]
  rcases m.appends_mux with ⟨k, hk, hseq, hhist⟩ | ⟨hnone, hseq, hhist⟩
  · refine ⟨fun _ => ⟨k, hk, hseq, hhist, ?_, ?_⟩, fun hv => ?_, hsend, hbusy, rfl, rfl⟩
    · simp [ports, hr, hk]
    · simp [ports, hr, hk]
    · simp [ports, hr, hk] at hv
  · refine ⟨fun hv => ?_, fun _ => ⟨hseq, hhist⟩, hsend, hbusy, rfl, rfl⟩
    simp [ports, hr, hnone] at hv

end Sys2Proof.Machine

/-! SUPPORT. What a cycle finds in `BI`, `K` and `ACC` is never read (O32). The first micro-step writes `BI` and `K`; until the
exit of F2 clears `ACC` two cycles that differ in it move alike, and the fuel of TRANSMIT lasts beyond that exit. -/

namespace Sys2Proof.Machine

open Sys2Proof.Safety

/-! ### The micro-steps of a cycle one by one -/

theorem cycleFrom_of_reset {s : State} (fuel : Nat) (hidle : s.ph ≠ .idle) (hfault : s.ph ≠ .fault)
    (hr : s.tick.sample.rst = true) : cycleFrom (fuel + 1) s = .next s.tick.cleared := by
  simp [cycleFrom, hidle, hfault, hr]

theorem cycleFrom_of_next {s t : State} (fuel : Nat) (hidle : s.ph ≠ .idle) (hfault : s.ph ≠ .fault)
    (hr : s.tick.sample.rst = false) (hm : microStep s.tick = .next t) : cycleFrom (fuel + 1) s = cycleFrom fuel t := by
  simp [cycleFrom, hidle, hfault, hr, hm]

/-- The micro-steps a cycle needs from here until the exit of F2 clears `ACC`; 0 once it has. -/
def stepsToSum (s : State) : Nat :=
  match s.ph with
  | .hdr1 | .f1 => 69 + bodyBits s.cfg - s.seq.length
  | .pause | .hdr2 | .f2 => 68 + bodyBits s.cfg - s.seq.length
  | .idle | .sum | .crc | .endPhase | .send | .wait | .fault => 0

/-- `s` with another value left in `ACC`. -/
def withAcc (s : State) (a : Byte) : State := { s with acc := a }

theorem encStep_bit_withAcc {src : Nat → Option Byte} {len stop : Nat} {exit : State → State} {s : State} {b : Byte}
    (a : Byte) (h : s.bi.toNat ≠ stop) (hb : src s.bi.toNat = some b) :
    encStep src len stop exit (withAcc s a) = .next (withAcc (s.append (bitKind b s.k.toNat)).advance a) := by
  rw [encStep_bit (s := withAcc s a) h hb, append_advance_eq, append_advance_eq]
  rfl

/-- Before the exit of F2 clears it, no micro-step reads `ACC`: with another value left in it the move is the same, and at that
exit so is the state. -/
theorem microStep_withAcc {s : State} (a : Byte) (hc : s.cfg.WellFormed) (hp : Position s) (hleft : 0 < stepsToSum s) :
    ∃ t, microStep s = .next t ∧
      (microStep (withAcc s a) = .next t ∨
       microStep (withAcc s a) = .next (withAcc t a) ∧ 0 < stepsToSum t ∧ stepsToSum s = stepsToSum t + 1) := by
  obtain ⟨-, h9, -, hlen, -⟩ := hc
  cases h : s.ph with
  | idle | sum | crc | endPhase | send | wait | fault => simp [stepsToSum, h] at hleft
  | hdr1 =>
    simp only [Position, h] at hp
    refine ⟨_, microStep_hdr1 h, .inr ⟨microStep_hdr1 (s := withAcc s a) h, ?_⟩⟩
    simp [stepsToSum, h, hp]
    omega
  | pause =>
    simp only [Position, h] at hp
    refine ⟨_, microStep_pause h, .inr ⟨microStep_pause (s := withAcc s a) h, ?_⟩⟩
    simp [stepsToSum, h, hp]
    omega
  | hdr2 =>
    simp only [Position, h] at hp
    refine ⟨_, microStep_hdr2 h, .inr ⟨microStep_hdr2 (s := withAcc s a) h, ?_⟩⟩
    simp [stepsToSum, h, hp]
    omega
  | f1 =>
    simp only [Position, h] at hp
    obtain ⟨hb8, hk, hseq⟩ := hp
    rw [microStep_f1 h, microStep_f1 (s := withAcc s a) h]
    by_cases e : s.bi.toNat = 8
    · refine ⟨_, encStep_exit e, .inr ⟨encStep_exit (s := withAcc s a) e, ?_⟩⟩
      simp [stepsToSum, h, hseq, hk e, e]
      omega
    · obtain ⟨b, hb, -⟩ := payloadRead_some hlen (show s.bi.toNat < s.cfg.n by omega)
      refine ⟨_, encStep_bit e hb, .inr ⟨encStep_bit_withAcc a e hb, ?_⟩⟩
      simp [stepsToSum, h, hseq]
      omega
  | f2 =>
    simp only [Position, h] at hp
    obtain ⟨hb8, hbn, -, hseq⟩ := hp
    rw [microStep_f2 h, microStep_f2 (s := withAcc s a) h]
    by_cases e : s.bi.toNat = s.cfg.n - 1
    · exact ⟨_, encStep_exit e, .inl (encStep_exit (s := withAcc s a) e)⟩
    · obtain ⟨b, hb, -⟩ := payloadRead_some hlen (show s.bi.toNat < s.cfg.n by omega)
      refine ⟨_, encStep_bit e hb, .inr ⟨encStep_bit_withAcc a e hb, ?_⟩⟩
      simp [stepsToSum, h, hseq, bodyBits]
      omega

/-- A cycle that still has the exit of F2 before it, and the fuel to get there, does not depend on `ACC`. -/
theorem cycleFrom_withAcc {fuel : Nat} {s : State} (a : Byte) (hc : s.cfg.WellFormed) (hp : Position s)
    (hleft : 0 < stepsToSum s) (hfuel : stepsToSum s ≤ fuel) : cycleFrom fuel (withAcc s a) = cycleFrom fuel s := by
  induction fuel generalizing s with
  | zero => omega
  | succ fuel ih =>
    have hidle : s.ph ≠ .idle := fun h => by simp [stepsToSum, h] at hleft
    have hfault : s.ph ≠ .fault := fun h => by simp [stepsToSum, h] at hleft
    cases hr : s.tick.sample.rst with
    | true =>
      rw [cycleFrom_of_reset fuel hidle hfault hr]
      exact cycleFrom_of_reset (s := withAcc s a) fuel hidle hfault hr
    | false =>
      obtain ⟨t, hm, hmoves⟩ := microStep_withAcc (s := s.tick) a hc hp hleft
      rw [cycleFrom_of_next fuel hidle hfault hr hm]
      rcases hmoves with hsame | ⟨hacc, hpos, hcount⟩
      · exact cycleFrom_of_next (s := withAcc s a) fuel hidle hfault hr hsame
      · have m := microStep_cases hm
        rw [cycleFrom_of_next (s := withAcc s a) fuel hidle hfault hr hacc]
        have hcount : stepsToSum s = stepsToSum t + 1 := hcount
        exact ih (m.cfg_eq ▸ hc) (position_of_move (s := s.tick) hc hp m) hpos (by omega)

/-- The first micro-step of a cycle writes `BI` and `K`; what is left in `ACC` waits for the exit of F2. -/
theorem cycleFrom_hdr1_leftover {fuel : Nat} {s : State} (b : BitVec 5) (j : BitVec 3) (a : Byte)
    (hc : s.cfg.WellFormed) (h : s.ph = .hdr1) (hseq : s.seq = []) (hfuel : 68 + bodyBits s.cfg ≤ fuel) :
    cycleFrom (fuel + 1) { s with bi := b, k := j, acc := a } = cycleFrom (fuel + 1) s := by
  have hidle : s.ph ≠ .idle := by simp [h]
  have hfault : s.ph ≠ .fault := by simp [h]
  cases hr : s.tick.sample.rst with
  | true =>
    rw [cycleFrom_of_reset fuel hidle hfault hr]
    exact cycleFrom_of_reset (s := { s with bi := b, k := j, acc := a }) fuel hidle hfault hr
  | false =>
    rw [cycleFrom_of_next fuel hidle hfault hr (microStep_hdr1 (s := s.tick) h)]
    have hleft := microStep_hdr1 (s := State.tick { s with bi := b, k := j, acc := a }) h
    refine (cycleFrom_of_next (s := { s with bi := b, k := j, acc := a }) fuel hidle hfault hr hleft).trans ?_
    refine cycleFrom_withAcc (s := ((s.tick.append .header).index 0 0).goto .f1) a hc ?_ ?_ ?_
    · simp [Position, hseq]
    · simp [stepsToSum, hseq]
    · simpa [stepsToSum, hseq] using hfuel

/-- TRANSMIT in `PH_IDLE` when the range check succeeds is the cycle from its first phase (R137). -/
theorem exec_transmit_of_ok {s : State} (hidle : s.ph = .idle) (hok : rangesOk s.cfg = true) :
    exec .transmit s = cycleFrom (9 * s.cfg.n + s.inputs.length + 1) { s with seq := [], ph := .hdr1 } := by
  rw [exec, execTransmit, if_pos hidle, startCycle_of_ok hok, Nat.add_right_comm]

/-- Settles O32: both are the cycle from its first phase, with fuel beyond the exit of F2. -/
theorem leftoverRegistersAreNeverRead : Obligations.LeftoverRegistersAreNeverRead := by
  intro s b j a hc hidle
  have hok := rangesOk_of_wellFormed hc
  have hfuel : 68 + bodyBits s.cfg ≤ 9 * s.cfg.n + s.inputs.length := by
    obtain ⟨-, h9, -⟩ := hc
    unfold bodyBits
    omega
  rw [exec_transmit_of_ok hidle hok, exec_transmit_of_ok (s := { s with bi := b, k := j, acc := a }) hidle hok]
  exact cycleFrom_hdr1_leftover (s := { s with seq := [], ph := .hdr1 }) b j a hc rfl rfl hfuel

end Sys2Proof.Machine

/-! SUPPORT. The history stays in the language of whole send cycles (O36). A micro-step appends a symbol to `SEQ` and its
event to `HIST`, leaves both, or closes the cycle: its `Send`, then its `Done`, which come only after the whole frame. -/

namespace Sys2Proof.Machine

open Sys2Proof.Safety

/-- In `PH_WAIT` the whole frame has been appended: `SEQ` begins it and has its length. -/
theorem seq_eq_frame_of_wait {s : State} (hs : OnTrack s) (h : s.ph = .wait) : s.seq = frame s.cfg := by
  have hp := hs.position
  simp only [Position, h] at hp
  obtain ⟨-, -, -, hlen⟩ := hp
  exact hs.onFrame.eq_of_length (hlen.trans (frame_length hs.config).symm)

/-- Outside `PH_WAIT` a symbol appended to `SEQ` and its event appended to `HIST` go together (R52). -/
theorem historyOk_of_append {s u : State} (k : Kind) (ho : HistoryOk s) (hs : s.ph ≠ .wait) (hu : u.ph ≠ .wait)
    (hcfg : u.cfg = s.cfg) (hseq : u.seq = (s.append k).seq) (hhist : u.hist = (s.append k).hist) : HistoryOk u := by
  obtain ⟨oks, hh⟩ := ho
  exact ⟨oks, by simp [hcfg, hseq, hhist, hh, hs, hu, appendEvent]⟩

/-- A move that leaves `SEQ` and `HIST`, outside `PH_WAIT` before and after it. -/
theorem historyOk_of_same {s u : State} (ho : HistoryOk s) (hs : s.ph ≠ .wait) (hu : u.ph ≠ .wait)
    (hcfg : u.cfg = s.cfg) (hseq : u.seq = s.seq) (hhist : u.hist = s.hist) : HistoryOk u := by
  obtain ⟨oks, hh⟩ := ho
  exact ⟨oks, by simp [hcfg, hseq, hhist, hh, hs, hu]⟩

/-- The event `Send` follows the appends of its cycle (R133). -/
theorem historyOk_of_send {s : State} (ho : HistoryOk s) (hs : s.ph ≠ .wait) : HistoryOk (s.sendOff.goto .wait) := by
  obtain ⟨oks, hh⟩ := ho
  exact ⟨oks, by simp [hh, hs]⟩

/-- The event `Done` makes the cycle a whole one (R135, R137). -/
theorem historyOk_of_done {s : State} (ok : Bool) (hs : OnTrack s) (ho : HistoryOk s) (hw : s.ph = .wait) :
    HistoryOk ((s.complete ok).goto .idle) := by
  obtain ⟨oks, hh⟩ := ho
  exact ⟨oks ++ [ok], by simp [hh, hw, seq_eq_frame_of_wait hs hw, cycleEvents]⟩

/-- On the table of R37 a micro-step keeps the history in its language. -/
theorem historyOk_of_move {s u : State} (hs : OnTrack s) (ho : HistoryOk s) (m : MicroMove s u) : HistoryOk u := by
  cases m with
  | hdr1 h | pause h | hdr2 h | endPhase h =>
    exact historyOk_of_append _ ho (by simp [h]) nofun rfl rfl rfl
  | f1Bit h | f2Bit h | crcBit h =>
    exact historyOk_of_append _ ho (by simp [h]) (by simp [h]) (State.advance_cfg _) (State.advance_seq _)
      (State.advance_hist _)
  | idleStart h =>
    have hp := hs.position
    simp only [Position, h, List.length_eq_zero_iff] at hp
    exact historyOk_of_same ho (by simp [h]) nofun rfl hp.symm rfl
  | idleFailFast h | f1Exit h | f2Exit h | sumExit h | crcExit h =>
    exact historyOk_of_same ho (by simp [h]) nofun rfl rfl rfl
  | sumByte h => exact historyOk_of_same ho (by simp [h]) (by simp [h]) rfl rfl rfl
  | send h => exact historyOk_of_send ho (by simp [h])
  | waitDone h ok => exact historyOk_of_done ok hs ho h
  | idleHold | waitHold | fault => exact ho

/-- On the table of R37 the current cycle, completed, makes the history a word of whole cycles. -/
theorem hist_begins_whole_cycles {s : State} (hs : OnTrack s) (ho : HistoryOk s) :
    ∃ oks : List Bool, s.hist <+: oks.flatMap (cycleEvents s.cfg) := by
  obtain ⟨oks, hh⟩ := ho
  refine ⟨oks ++ [true], ?_⟩
  rw [hh, List.flatMap_append, List.flatMap_singleton, List.append_assoc, List.prefix_append_right_inj]
  by_cases hw : s.ph = .wait
  · simp [hw, seq_eq_frame_of_wait hs hw, cycleEvents]
  · rw [if_neg hw, List.append_nil]
    exact (hs.onFrame.map appendEvent).trans (List.prefix_append _ _)

/-- Settles O36: a reset empties the history, and a hardware edge is a micro-step on the table, which O33 keeps. -/
theorem stepKeepsTheHistoryInItsLanguage : Obligations.StepKeepsTheHistoryInItsLanguage := by
  intro s t hs ho ht
  have hot : HistoryOk t := by
    cases hr : s.sample.rst with
    | true =>
      obtain rfl : s.cleared.tick = t := by simpa [step_of_reset hr] using ht
      exact ⟨[], rfl⟩
    | false =>
      obtain ⟨u, m, rfl⟩ := step_hardware_cases hr hs.noIssue ht
      exact (historyOk_of_move hs ho m : HistoryOk u)
  exact ⟨hot, hist_begins_whole_cycles (stepKeepsOnTrack s t hs ht) hot⟩

end Sys2Proof.Machine

/-! SUPPORT. End stands last in `FRAME(PAYLOAD)` and nowhere else, and with that the layout of R58 is complete (O23). -/

namespace Sys2Proof.Machine

open Sys2Proof.Safety

/-- A data symbol is one of the two of R76. -/
theorem bitsym_eq_zeroBit_or_oneBit (t : SymTab) (b : Byte) (k : Nat) :
    bitsym t b k = t.zeroBit ∨ bitsym t b k = t.oneBit := by
  unfold bitsym bitKind
  split
  · exact .inr rfl
  · exact .inl rfl

/-- The encoder appends data symbols only (R110). -/
theorem eq_zeroBit_or_oneBit_of_mem_encodeBytes {t : SymTab} {l : List Byte} {x : TimedSymbol}
    (h : x ∈ encodeBytes t l) : x = t.zeroBit ∨ x = t.oneBit := by
  simp only [encodeBytes, encodeByte, List.mem_flatMap, List.mem_map] at h
  obtain ⟨b, -, k, -, rfl⟩ := h
  exact bitsym_eq_zeroBit_or_oneBit t b k

/-- The encoder never appends End (R75). -/
theorem endSymbol_notMem_encodeBytes {t : SymTab} (ht : t = refSymtab) (l : List Byte) :
    t.endSymbol ∉ encodeBytes t l := by
  subst ht
  intro h
  rcases eq_zeroBit_or_oneBit_of_mem_encodeBytes h with h | h <;> simp [refSymtab] at h

/-- Before its last symbol the frame has no End (R58). -/
theorem endSymbol_notMem_dropLast_frame {c : Config} (ht : c.symtab = refSymtab) :
    c.symtab.endSymbol ∉ (frame c).dropLast := by
  have hheader : c.symtab.endSymbol ≠ c.symtab.header := by simp [ht, refSymtab]
  have hpause : c.symtab.endSymbol ≠ c.symtab.pause := by simp [ht, refSymtab]
  rw [frame, List.dropLast_concat]
  simp only [List.mem_append, List.mem_singleton, hheader, hpause, endSymbol_notMem_encodeBytes ht, or_self,
    not_false_eq_true]

/-- End stands at the last position and at no other (R58, R132). -/
theorem frame_getElem?_eq_endSymbol_iff {c : Config} (hc : c.WellFormed) (j : Nat) :
    (frame c)[j]? = some c.symtab.endSymbol ↔ j = 75 + bodyBits c := by
  refine ⟨fun h => ?_, fun h => h ▸ frame_getElem?_end hc⟩
  obtain ⟨hj, -⟩ := List.getElem?_eq_some_iff.mp h
  have hlen := frame_length hc
  obtain ⟨-, -, -, -, ht⟩ := hc
  by_contra hne
  refine endSymbol_notMem_dropLast_frame ht (List.mem_of_getElem? (i := j) ?_)
  rw [List.getElem?_dropLast, if_pos (by omega), h]

/-- Settles O23: each position is one of the frame's parts; the reference values are evaluated. -/
theorem frameHasItsLayout : Obligations.FrameHasItsLayout := by
  refine ⟨by decide, frame_length (c := refConfig) (by decide), fun c hc => ?_⟩
  obtain ⟨-, h9, -, -, ht⟩ := id hc
  have hheader : c.symtab.header = ⟨3468, 1767⟩ := by rw [ht]; rfl
  have hpause : c.symtab.pause = ⟨432, 10000⟩ := by rw [ht]; rfl
  have hend : c.symtab.endSymbol = ⟨432, 0⟩ := by rw [ht]; rfl
  have hlast : 75 + bodyBits c = 8 * c.n + 3 := by unfold bodyBits; omega
  refine ⟨?_, hheader ▸ frame_getElem?_header c, fun i k b hi hk hb => ?_, hpause ▸ frame_getElem?_pause hc,
    hheader ▸ frame_getElem?_header2 hc, fun i k b h8 hi hk hb => ?_, fun k hk => frame_getElem?_crc hc hk,
    fun j => ?_⟩
  · rw [frame_length hc]
    omega
  · rw [payloadRead_of_lt (by omega)] at hb
    exact frame_getElem?_f1 hi hk hb
  · rw [payloadRead_of_lt (by omega)] at hb
    exact frame_getElem?_body hc h8 hi hk hb
  · rw [← hend, ← hlast]
    exact frame_getElem?_eq_endSymbol_iff hc j

end Sys2Proof.Machine

/-! SUPPORT. The reserved slot `N-1` is never read (O25): every byte range of the frame ends before it, and on the table
of R37 every micro-step that reads a byte reads one before it. -/

namespace Sys2Proof.Machine

open Sys2Proof.Safety

/-! ### The frame and the checksum -/

/-- A range that ends at or before an index does not depend on the byte there. -/
theorem slice_set {data : List Byte} {a e i : Nat} (b : Byte) (h : e ≤ i) :
    slice (data.set i b) a e = slice data a e := by
  rw [slice, slice, List.take_set_of_le h]

theorem crcOf_configWithSlot (c : Config) (b : Byte) : crcOf (configWithSlot c b) = crcOf c :=
  congrArg sumBytes (slice_set b le_rfl)

theorem frame_configWithSlot {c : Config} (b : Byte) (h9 : 9 ≤ c.n) : frame (configWithSlot c b) = frame c := by
  have hf1 : slice (configWithSlot c b).payload 0 Config.f1Len = slice c.payload 0 Config.f1Len :=
    slice_set b (by unfold Config.f1Len Config.crcSlot; omega)
  have hbody : slice (configWithSlot c b).payload Config.bodyStart (configWithSlot c b).bodyEnd =
      slice c.payload Config.bodyStart c.bodyEnd :=
    slice_set b le_rfl
  rw [frame, hf1, hbody, crcOf_configWithSlot]
  rfl

theorem rangesOk_configWithSlot (c : Config) (b : Byte) : rangesOk (configWithSlot c b) = rangesOk c := by
  rw [Bool.eq_iff_iff, rangesOk_iff, rangesOk_iff]
  simp [configWithSlot]

/-- A byte that is read elsewhere than in the reserved slot is the same whatever stands in the slot (R50). -/
theorem payloadRead_configWithSlot {c : Config} {i : Nat} (b : Byte) (h : i ≠ c.n - 1) :
    payloadRead (configWithSlot c b) i = payloadRead c i := by
  simp only [payloadRead, configWithSlot, Config.crcSlot, List.getElem?_set_ne h.symm]

/-! ### The micro-step as its move -/

theorem microStep_crc {s : State} (h : s.ph = .crc) :
    microStep s = encStep (oneByte s.acc) 1 1 (fun s => s.goto .endPhase) s :=
  microStep_of_phase h

theorem execPhWait_answer {s : State} {ok : Bool} (h : answerOf s.sample = some ok) :
    execPhWait s = .next ((s.complete ok).goto .idle) := by
  simp [execPhWait, h]

theorem execPhWait_hold {s : State} (h : answerOf s.sample = none) : execPhWait s = .next s := by
  simp [execPhWait, h]

/-- A move tells the micro-step: the converse of `microStep_cases`. -/
theorem MicroMove.microStep_eq {s u : State} (m : MicroMove s u) : microStep s = .next u := by
  cases m with
  | idleStart h c ok => rw [← startCycle_of_ok ok, microStep_of_phase h]; exact execPhIdle_start c
  | idleFailFast h c ok => rw [← startCycle_of_not_ok ok, microStep_of_phase h]; exact execPhIdle_start c
  | idleHold h c => exact (microStep_of_phase h).trans (execPhIdle_hold c)
  | hdr1 h | pause h | hdr2 h | endPhase h | send h | fault h => exact microStep_of_phase h
  | f1Bit h e b r => rw [microStep_f1 h, encStep_bit e r]
  | f1Exit h e => rw [microStep_f1 h, encStep_exit e]
  | f2Bit h e b r => rw [microStep_f2 h, encStep_bit e r]
  | f2Exit h e => rw [microStep_f2 h, encStep_exit e]
  | sumByte h e b r => exact (microStep_of_phase h).trans (execPhSum_byte e r)
  | sumExit h e => exact (microStep_of_phase h).trans (execPhSum_exit e)
  | crcBit h e =>
    rw [microStep_crc h]
    exact encStep_bit (by omega) (oneByte_eq_some.mpr ⟨e, rfl⟩)
  | crcExit h e => rw [microStep_crc h, encStep_exit e]
  | waitDone h ok a => exact (microStep_of_phase h).trans (execPhWait_answer a)
  | waitHold h a => exact (microStep_of_phase h).trans (execPhWait_hold a)

/-! ### A step with another byte in the slot -/

/-- An appending encoder micro-step does not look at the payload store itself. -/
theorem append_advance_withSlot (s : State) (j : Kind) (b : Byte) :
    withSlot (s.append j).advance b = ((withSlot s b).append j).advance := by
  rw [append_advance_eq, append_advance_eq]
  rfl

/-- Frame 1 ends before the reserved slot. -/
theorem bi_ne_slot_of_f1 {s : State} (hc : s.cfg.WellFormed) (hp : Position s) (h : s.ph = .f1) (e : s.bi.toNat ≠ 8) :
    s.bi.toNat ≠ s.cfg.n - 1 := by
  obtain ⟨-, h9, -⟩ := hc
  simp only [Position, h] at hp
  obtain ⟨hb8, -⟩ := hp
  omega

/-- On the table of R37 a move is the same move with another byte in the reserved slot. -/
theorem MicroMove.move_withSlot {s u : State} (b : Byte) (hc : s.cfg.WellFormed) (hp : Position s) (m : MicroMove s u) :
    MicroMove (withSlot s b) (withSlot u b) := by
  have read {i : Nat} {x : Byte} (hi : i ≠ s.cfg.n - 1) (r : payloadRead s.cfg i = some x) :
      payloadRead (configWithSlot s.cfg b) i = some x := (payloadRead_configWithSlot b hi).trans r
  cases m with
  | idleStart h c ok => exact .idleStart (s := withSlot s b) h c ((rangesOk_configWithSlot s.cfg b).trans ok)
  | idleFailFast h c ok => exact .idleFailFast (s := withSlot s b) h c ((rangesOk_configWithSlot s.cfg b).trans ok)
  | idleHold h c => exact .idleHold (s := withSlot s b) h c
  | hdr1 h => exact .hdr1 (s := withSlot s b) h
  | f1Bit h e x r =>
    have hslot := bi_ne_slot_of_f1 hc hp h e
    rw [append_advance_withSlot]
    exact .f1Bit (s := withSlot s b) h e x (read hslot r)
  | f1Exit h e => exact .f1Exit (s := withSlot s b) h e
  | pause h => exact .pause (s := withSlot s b) h
  | hdr2 h => exact .hdr2 (s := withSlot s b) h
  | f2Bit h e x r =>
    rw [append_advance_withSlot]
    exact .f2Bit (s := withSlot s b) h e x (read e r)
  | f2Exit h e => exact .f2Exit (s := withSlot s b) h e
  | sumByte h e x r => exact .sumByte (s := withSlot s b) h e x (read e r)
  | sumExit h e => exact .sumExit (s := withSlot s b) h e
  | crcBit h e =>
    rw [append_advance_withSlot]
    exact .crcBit (s := withSlot s b) h e
  | crcExit h e => exact .crcExit (s := withSlot s b) h e
  | endPhase h => exact .endPhase (s := withSlot s b) h
  | send h => exact .send (s := withSlot s b) h
  | waitDone h ok a => exact .waitDone (s := withSlot s b) h ok a
  | waitHold h a => exact .waitHold (s := withSlot s b) h a
  | fault h => exact .fault (s := withSlot s b) h

/-- Settles O25: no range of the frame reaches the slot, and no move of R37's table reads it. -/
theorem reservedSlotIsNeverRead : Obligations.ReservedSlotIsNeverRead := by
  refine ⟨fun c b ⟨_, h9, _⟩ => ⟨frame_configWithSlot b h9, crcOf_configWithSlot c b⟩,
    fun s t b hs ht => ?_⟩
  cases hr : s.sample.rst with
  | true =>
    obtain rfl : s.cleared.tick = t := by simpa [step_of_reset hr] using ht
    exact step_of_reset (s := withSlot s b) hr
  | false =>
    obtain ⟨u, m, rfl⟩ := step_hardware_cases hr hs.noIssue ht
    rw [step_of_hardware (s := withSlot s b) hr hs.noIssue, (m.move_withSlot b hs.config hs.position).microStep_eq]
    rfl

end Sys2Proof.Machine

/-! SUPPORT. The decoder and the encoder are inverse to each other (O2), the rows of the opcode table (O1), and what the
decoder and the step refuse (O3). Each format is said once: which bits name a phase, a kind, or nothing. -/

namespace Sys2Proof.Machine

/-! ### The two tables of codes -/

/-- What a table gives for a code has that code, if every row of the table has the code of its entry. -/
theorem code_eq_of_find?_rows {α : Type} {n : Nat} {rows : List (BitVec n × α)} {code : α → BitVec n}
    {c : BitVec n} {x : α} (hrows : ∀ r ∈ rows, r.1 = code r.2) (h : (rows.find? fun r => r.1 == c).map (·.2) = some x) :
    c = code x := by
  obtain ⟨r, hr, rfl⟩ := Option.map_eq_some_iff.mp h
  have hc : r.1 = c := by simpa using List.find?_some hr
  rw [← hc, hrows r (List.mem_of_find?_eq_some hr)]

/-- The phase of a 4-bit code is the one the code stands for (R82). -/
theorem phaseOfCode_eq_some_iff {c : BitVec 4} {p : Phase} : phaseOfCode c = some p ↔ c = phaseCode p := by
  refine ⟨code_eq_of_find?_rows (rows := phaseRows) (by decide), ?_⟩
  rintro rfl
  cases p <;> rfl

/-- The kind of a 32-bit word is the one whose packed pair the word is (R77, R80). -/
theorem kindOfWord_eq_some_iff {w : BitVec 32} {k : Kind} : kindOfWord w = some k ↔ w = kindWord k := by
  refine ⟨code_eq_of_find?_rows (rows := symbolRows) (by decide), ?_⟩
  rintro rfl
  cases k <;> rfl

theorem phaseOfCode_eq_none_iff (c : BitVec 4) : phaseOfCode c = none ↔ 11 ≤ c.toNat ∧ c.toNat ≤ 14 := by
  revert c
  decide

theorem kindOfWord_eq_none_iff {w : BitVec 32} : kindOfWord w = none ↔ ∀ k, w ≠ kindWord k := by
  simp only [Option.eq_none_iff_forall_ne_some, ne_eq, kindOfWord_eq_some_iff]

theorem kindOfCode_eq_none_iff (c : BitVec 3) : kindOfCode c = none ↔ 5 ≤ c.toNat := by
  revert c
  decide

theorem kindOfCode_kindCode (k : Kind) : kindOfCode (kindCode k) = some k := by
  cases k <;> rfl

/-! ### Decoding, format by format -/

theorem decode_phase_eq_ok_iff {c : BitVec 4} {i : Instr} :
    decode (.phase c) = .ok i ↔ ∃ p : Phase, c = phaseCode p ∧ i = p.instr := by
  simp only [← phaseOfCode_eq_some_iff, decode]
  cases phaseOfCode c <;> simp [eq_comm]

theorem decode_symbol_eq_ok_iff {w : BitVec 32} {i : Instr} :
    decode (.symbol w) = .ok i ↔ ∃ k : Kind, w = kindWord k ∧ i = k.instr := by
  simp only [← kindOfWord_eq_some_iff, decode]
  cases kindOfWord w <;> simp [eq_comm]

theorem decode_phase_refused_iff (c : BitVec 4) :
    decode (.phase c) = .error (.reservedPhase c) ↔ phaseOfCode c = none := by
  simp only [decode]
  cases phaseOfCode c <;> simp

theorem decode_symbol_refused {w : BitVec 32} (h : ∀ k, w ≠ kindWord k) :
    decode (.symbol w) = .error (.notASymbolWord w) := by
  simp [decode, kindOfWord_eq_none_iff.mpr h]

theorem encode_instrOfCall (op : Call) : encode (instrOfCall op) = .call op := by
  cases op <;> rfl

/-- Decoding gives every instruction back from its written form. -/
theorem decode_encode (i : Instr) : decode (encode i) = .ok i := by
  rcases instr_group i with ⟨k, rfl⟩ | ⟨p, rfl⟩ | ⟨op, rfl⟩
  · rw [encode_kind_instr]
    exact decode_symbol_eq_ok_iff.mpr ⟨k, rfl, rfl⟩
  · rw [encode_phase_instr, decode_phaseCode]
  · rw [encode_instrOfCall]
    rfl

/-- An accepted code is the written form of what it decodes to: no bit of it is dropped. -/
theorem encode_of_decode {c : Code} {i : Instr} (h : decode c = .ok i) : encode i = c := by
  cases c with
  | phase c =>
    obtain ⟨p, rfl, rfl⟩ := decode_phase_eq_ok_iff.mp h
    exact encode_phase_instr p
  | symbol w =>
    obtain ⟨k, rfl, rfl⟩ := decode_symbol_eq_ok_iff.mp h
    exact encode_kind_instr k
  | call op =>
    cases h
    exact encode_instrOfCall op
  | other nbits w => cases h

/-! ### Bits numbered as the opcode table numbers them -/

theorem decodeTableWord_eq_some_iff {nbits w : Nat} {i : Instr} :
    decodeTableWord nbits w = some i ↔ decode (codeOfTable nbits w) = .ok i := by
  unfold decodeTableWord
  cases decode (codeOfTable nbits w) <;> simp

theorem codeOfTable_phase (c : BitVec 4) : codeOfTable 8 c.toNat = .phase c := by
  simp [codeOfTable, c.isLt]

theorem codeOfTable_symbol (w : BitVec 32) : codeOfTable 32 w.toNat = .symbol w := by
  have hw : w.toNat < 2 ^ 32 := w.isLt
  rw [codeOfTable, if_pos ⟨rfl, hw⟩, BitVec.ofNat_toNat, BitVec.setWidth_eq]

/-- A phase code in one whole byte is read as its phase's row (R82). -/
theorem decodeTableWord_phaseCode (p : Phase) : decodeTableWord 8 (phaseCode p).toNat = some p.instr := by
  rw [decodeTableWord_eq_some_iff, codeOfTable_phase, decode_phaseCode]

/-- The packed word of a kind is read as the kind's row (R77). -/
theorem decodeTableWord_kindWord (k : Kind) : decodeTableWord 32 (kindWord k).toNat = some k.instr := by
  rw [decodeTableWord_eq_some_iff, codeOfTable_symbol]
  exact decode_symbol_eq_ok_iff.mpr ⟨k, rfl, rfl⟩

/-- Settles O2: the two directions hold for each format, and the table's bits are such codes. -/
theorem decodeAndEncodeAgree : Obligations.DecodeAndEncodeAgree :=
  ⟨decode_encode, fun _ _ => encode_of_decode,
    fun _ _ _ h => (encode_of_decode (decodeTableWord_eq_some_iff.mp h)).symm⟩

/-- Settles O1: the words written out are the packed words of the kinds, the numbers the codes of the phases. -/
theorem tableWordsDecodeToTheirRows : Obligations.TableWordsDecodeToTheirRows :=
  ⟨decodeTableWord_kindWord .zeroBit, decodeTableWord_kindWord .oneBit, decodeTableWord_kindWord .header,
    decodeTableWord_kindWord .pause, decodeTableWord_kindWord .endSymbol,
    decodeTableWord_phaseCode .idle, decodeTableWord_phaseCode .hdr1, decodeTableWord_phaseCode .f1,
    decodeTableWord_phaseCode .pause, decodeTableWord_phaseCode .hdr2, decodeTableWord_phaseCode .f2,
    decodeTableWord_phaseCode .sum, decodeTableWord_phaseCode .crc, decodeTableWord_phaseCode .endPhase,
    decodeTableWord_phaseCode .send, decodeTableWord_phaseCode .wait, decodeTableWord_phaseCode .fault⟩

/-! ### What a step does with a code that is no instruction -/

theorem step_of_decode_error {s : State} {e : DecodeError} (hr : s.sample.rst = false) (hd : decode s.fetch = .error e) :
    step s = .refused (refusalOf e) := by
  simp [step, hr, hd]

/-- Placing a table row lowers the reset of the edge that runs it (log entry 14). -/
theorem place_sample_rst (s : State) (c : Code) : (s.place c).sample.rst = false := by
  have low (l : List Sample) : ((withoutReset l).headD Sample.low).rst = false := by cases l <;> rfl
  cases c <;> exact low s.inputs

theorem withFetchWord_phase (s : State) (c : BitVec 4) : s.withFetchWord 8 c.toNat = s.place (.phase c) := by
  rw [State.withFetchWord, codeOfTable_phase]

/-- A reserved code in `PH` is `PH_FAULT`, whose micro-step keeps every element (R84 (b), R136). -/
theorem step_withFetchWord_reserved {s : State} {c : BitVec 4} (h : phaseOfCode c = none) :
    step (s.withFetchWord 8 c.toNat) = .next (s.place (.phase c)).tick := by
  have hph : (s.place (.phase c)).ph = .fault := by simp [State.place, phaseInPH, h]
  rw [withFetchWord_phase, step_of_hardware (place_sample_rst s _) rfl, microStep_of_phase hph]
  rfl

/-- Settles O3: the reserved codes by the tables, the refusals by the decoder, the code in `PH` by its stop. -/
theorem reservedCodesAreRefused : Obligations.ReservedCodesAreRefused := by
  refine ⟨fun c => (decode_phase_refused_iff c).trans (phaseOfCode_eq_none_iff c), kindOfCode_eq_none_iff,
    kindOfCode_kindCode, fun w => decode_symbol_refused, fun s w hr hi hw => ?_, fun s c h11 h14 => ?_⟩
  · exact step_of_decode_error hr (fetch_of_issue hi ▸ decode_symbol_refused hw)
  · have hnone := (phaseOfCode_eq_none_iff c).mpr ⟨h11, h14⟩
    exact ⟨_, step_withFetchWord_reserved hnone, by simp [State.place, phaseInPH, hnone], rfl, rfl, rfl, rfl, rfl⟩

end Sys2Proof.Machine

/-! SUPPORT. The symbols: the rows that append them (O8), the 32-bit word and the ports that carry its halves (O4), and the
symbol a data bit selects (O7). -/

namespace Sys2Proof.Machine

/-! ### Appending a symbol of R27's table -/

theorem append_of_refSymtab {s : State} (ht : s.cfg.symtab = refSymtab) (k : Kind) :
    s.append k = { s with
      seq := s.seq ++ [symbolOf refSymtab k]
      hist := s.hist ++ [.append (symbolOf refSymtab k).mark (symbolOf refSymtab k).space] } := by
  rw [State.append, ht]

/-- Settles O8: each symbol row is its append, and the table is R27's. -/
theorem symbolRowsAppendTheirPair : Obligations.SymbolRowsAppendTheirPair := by
  intro s ht
  have row (k : Kind) := (exec_kind_instr k s).trans (congrArg _ (append_of_refSymtab ht k))
  exact ⟨row .zeroBit, row .oneBit, row .header, row .pause, row .endSymbol⟩

/-! ### The symbol word -/

theorem symbolWord_mark (x : TimedSymbol) : (symbolWord x).extractLsb' 16 16 = BitVec.ofNat 16 x.mark :=
  BitVec.extractLsb'_append_eq_left

theorem symbolWord_space (x : TimedSymbol) : (symbolWord x).extractLsb' 0 16 = BitVec.ofNat 16 x.space :=
  BitVec.extractLsb'_append_eq_right

/-- No duration of the protocol reaches 2^14 ticks, so bits 15 and 14 of either half are 0 (R77). -/
theorem kindWord_high_bits (k : Kind) :
    (kindWord k).getLsbD 31 = false ∧ (kindWord k).getLsbD 30 = false ∧
    (kindWord k).getLsbD 15 = false ∧ (kindWord k).getLsbD 14 = false := by
  cases k <;> decide

/-- While a symbol is appended the two ports side by side are its word (R52, R77). -/
theorem ports_symbolWord {s : State} {k : Kind} (hr : s.sample.rst = false) (hk : mux s = some k) :
    (ports s).appMark ++ (ports s).appSpace = symbolWord (symbolOf s.cfg.symtab k) := by
  simp [ports, hr, hk, symbolWord]

/-- Settles O4: the word is the two halves, which the ports carry; the five words are evaluated. -/
theorem symbolWordHoldsMarkOverSpace : Obligations.SymbolWordHoldsMarkOverSpace :=
  ⟨fun x => ⟨symbolWord_mark x, symbolWord_space x⟩, by decide, by decide, by decide, by decide, by decide,
    kindWord_high_bits, fun _ _ => ports_symbolWord⟩

/-! ### The symbol of a data bit -/

/-- The bit of R9 as R76 computes it. -/
theorem bit_eq_decide (b : Byte) (k : Nat) : bit b k = decide (b.toNat / 2 ^ k % 2 = 1) :=
  Nat.testBit_eq_decide_div_mod_eq

theorem bitKind_of_one {b : Byte} {k : Nat} (h : b.toNat / 2 ^ k % 2 = 1) : bitKind b k = .oneBit := by
  simp [bitKind, bit_eq_decide, h]

theorem bitKind_of_zero {b : Byte} {k : Nat} (h : b.toNat / 2 ^ k % 2 = 0) : bitKind b k = .zeroBit := by
  simp [bitKind, bit_eq_decide, h]

/-- The kind code of a data symbol is the bit it stands for (R76, R83). -/
theorem kindCode_bitKind (b : Byte) (k : Nat) : (kindCode (bitKind b k)).toNat = b.toNat / 2 ^ k % 2 := by
  rcases Nat.mod_two_eq_zero_or_one (b.toNat / 2 ^ k) with h | h
  · rw [bitKind_of_zero h, h]
    rfl
  · rw [bitKind_of_one h, h]
    rfl

/-- Settles O7: the bit, as a number, selects the kind. -/
theorem dataBitSelectsItsSymbol : Obligations.DataBitSelectsItsSymbol := by
  refine ⟨fun t b k _ => ⟨fun h => ?_, fun h => ?_, kindCode_bitKind b k⟩, rfl, rfl, rfl⟩
  · rw [bitsym, bitKind_of_one h, symbolOf]
  · rw [bitsym, bitKind_of_zero h, symbolOf]

end Sys2Proof.Machine

/-! SUPPORT. A stream reads back (O22): the kind of a pair, the bit of a data symbol, the byte of eight of them, and with the
layout of the frame (R58) the payload and the checksum from their positions. -/

namespace Sys2Proof.Machine

open Sys2Proof.Safety

/-! ### Kinds and bits -/

theorem kindOfSymbol_symbolOf (k : Kind) : kindOfSymbol (symbolOf refSymtab k) = some k := by
  cases k <;> rfl

theorem kindOfSymbol_eq_some_iff {x : TimedSymbol} {k : Kind} : kindOfSymbol x = some k ↔ x = symbolOf refSymtab k := by
  refine ⟨fun h => ?_, fun h => h ▸ kindOfSymbol_symbolOf k⟩
  exact (beq_iff_eq.mp (List.find?_some h :)).symm

theorem bitOfSymbol_bitsym (b : Byte) (k : Nat) : bitOfSymbol (bitsym refSymtab b k) = some (bit b k) := by
  rw [bitOfSymbol, bitsym, kindOfSymbol_symbolOf, bitKind]
  cases bit b k <;> rfl

/-! ### Bytes -/

theorem numberOfBits_cons (b : Bool) (l : List Bool) : numberOfBits (b :: l) = Nat.bit b (numberOfBits l) := by
  rw [Nat.bit_val, numberOfBits, Nat.add_comm]

/-- The binary digits of the number are the bits it was made of. -/
theorem numberOfBits_testBit (l : List Bool) (i : Nat) : (numberOfBits l).testBit i = l[i]?.getD false := by
  induction l generalizing i with
  | nil => simp [numberOfBits]
  | cons b l ih =>
    rw [numberOfBits_cons]
    cases i with
    | zero => simp
    | succ i => simp [Nat.testBit_bit_succ, ih]

theorem ofNat_numberOfBits (b : Byte) : BitVec.ofNat 8 (numberOfBits ((List.range 8).map (bit b))) = b := by
  apply BitVec.eq_of_getLsbD_eq
  intro i hi
  rw [BitVec.getLsbD_ofNat, numberOfBits_testBit]
  simp [hi, bit]

theorem mapM_bitOfSymbol_encodeByte (b : Byte) :
    (encodeByte refSymtab b).mapM bitOfSymbol = some ((List.range 8).map (bit b)) := by
  rw [encodeByte, List.mapM_map, show bitOfSymbol ∘ bitsym refSymtab b = fun k => pure (bit b k) from
    funext (bitOfSymbol_bitsym b), List.mapM_pure]
  rfl

/-- The eight symbols of a byte give the byte back (R80, R110). -/
theorem byteOfSymbols_encodeByte (b : Byte) : byteOfSymbols (encodeByte refSymtab b) = some b := by
  rw [byteOfSymbols, if_pos (encodeByte_length _ b), mapM_bitOfSymbol_encodeByte, Option.map_some, ofNat_numberOfBits]

/-- Where eight symbols in a row are those of a byte, the byte is read there. -/
theorem byteOfSymbols_take_drop {l : List TimedSymbol} {j : Nat} {b : Byte}
    (h : ∀ k < 8, l[j + k]? = some (bitsym refSymtab b k)) : byteOfSymbols ((l.drop j).take 8) = some b := by
  have heq : (l.drop j).take 8 = encodeByte refSymtab b := by
    apply List.ext_getElem?
    intro k
    rw [List.getElem?_take, List.getElem?_drop]
    split
    next hk => rw [h k hk, encodeByte_getElem? _ b hk]
    next hk => exact (List.getElem?_eq_none (by simp; omega)).symm
  rw [heq, byteOfSymbols_encodeByte]

/-- Settles O22: the symbols at each position of R58 are those of one byte. -/
theorem streamReadsBack : Obligations.StreamReadsBack := by
  refine ⟨fun x k => kindOfSymbol_eq_some_iff, byteOfSymbols_encodeByte, fun c hc => ?_⟩
  obtain ⟨-, h9, -, hlen, ht⟩ := id hc
  refine ⟨fun i hi => ?_, fun i h8 hi => ?_, ?_⟩
  · obtain ⟨b, -, hb⟩ := payloadRead_some hlen (i := i) (by omega)
    rw [hb]
    exact byteOfSymbols_take_drop fun k hk => ht ▸ frame_getElem?_f1 hi hk hb
  · obtain ⟨b, -, hb⟩ := payloadRead_some hlen (i := i) (by omega)
    rw [hb]
    exact byteOfSymbols_take_drop fun k hk => ht ▸ frame_getElem?_body hc h8 hi hk hb
  · exact byteOfSymbols_take_drop fun k hk => ht ▸ frame_getElem?_crc hc hk

end Sys2Proof.Machine

/-! SUPPORT. CHECKSUM is the sum of its range modulo 256 (O18), and the laws that follow from it (O20): the range is split at
the byte in question, and the sum adds over the parts. -/

namespace Sys2Proof.Machine

/-! ### The sum of bytes -/

theorem sumBytes_cons (b : Byte) (l : List Byte) : sumBytes (b :: l) = b + sumBytes l := by
  simpa using sumBytes_append [b] l

/-- Narrowing once at the end is narrowing at every addition (R101). -/
theorem sumBytes_eq_ofNat_sum (l : List Byte) : sumBytes l = BitVec.ofNat 8 (l.map BitVec.toNat).sum := by
  induction l with
  | nil => rfl
  | cons b l ih =>
    rw [sumBytes_cons, ih, List.map_cons, List.sum_cons, BitVec.ofNat_add, BitVec.ofNat_toNat, BitVec.setWidth_eq]

theorem sumBytes_perm {l m : List Byte} (h : l.Perm m) : sumBytes l = sumBytes m := by
  rw [sumBytes_eq_ofNat_sum, sumBytes_eq_ofNat_sum, (h.map BitVec.toNat).sum_eq]

theorem byte_ofNat_mod (n : Nat) : BitVec.ofNat 8 (n % 256) = BitVec.ofNat 8 n :=
  BitVec.eq_of_toNat_eq (by simp)

/-! ### Ranges -/

/-- A range split at one of its bytes. -/
theorem slice_split {data : List Byte} {a i b : Nat} {x : Byte} (hai : a ≤ i) (hib : i < b) (hb : b ≤ data.length)
    (hx : data[i]? = some x) : slice data a b = slice data a i ++ x :: slice data (i + 1) b := by
  rw [slice_append (by omega) hib hb, slice_succ hai hx, List.append_assoc, List.singleton_append]

/-- The sum of a range begins with the range's first byte. -/
theorem sumBytes_slice_head {data : List Byte} {a b : Nat} {x : Byte} (hab : a < b) (hb : b ≤ data.length)
    (hx : data[a]? = some x) : sumBytes (slice data a b) = x + sumBytes (slice data (a + 1) b) := by
  rw [slice_split le_rfl hab hb hx, slice_self, List.nil_append, sumBytes_cons]

/-- A change in front of a range is outside it. -/
theorem slice_set_before {data : List Byte} {a e i : Nat} (b : Byte) (h : i < a) :
    slice (data.set i b) a e = slice data a e := by
  rw [slice, slice, List.take_set, List.drop_set_of_lt h]

theorem slice_append_mid (u v w : List Byte) : slice (u ++ v ++ w) u.length (u.length + v.length) = v := by
  simp [slice, List.take_append]

theorem slice_eq_map_getD {data : List Byte} {a b : Nat} (hb : b ≤ data.length) :
    slice data a b = (List.range (b - a)).map fun j => data.getD (a + j) 0 := by
  apply List.ext_getElem?
  intro j
  rw [slice_getElem?, List.getElem?_map]
  by_cases hj : a + j < b
  · have hlt : a + j < data.length := by omega
    rw [if_pos hj, List.getElem?_range (by omega), Option.map_some, List.getD_eq_getElem?_getD,
      List.getElem?_eq_getElem hlt, Option.getD_some]
  · rw [if_neg hj, List.getElem?_eq_none (by simp; omega), Option.map_none]

/-! ### CHECKSUM -/

theorem computeChecksum_of_range {data : List Byte} {a b : Nat} (hab : a ≤ b) (hb : b ≤ data.length) :
    computeChecksum data a b = .ok (sumBytes (slice data a b)) :=
  if_pos ⟨hab, hb⟩

theorem computeChecksum_of_malformed {data : List Byte} {a b : Nat} (h : ¬ (a ≤ b ∧ b ≤ data.length)) :
    computeChecksum data a b = .error (.preconditionViolation .checksum a b data.length) :=
  if_neg h

theorem exec_checksum_of_ok {data : List Byte} {a b : Nat} {x : Byte} (s : State)
    (h : computeChecksum data a b = .ok x) : exec (.checksum data a b) s = .next (s.returning (.byte x)) := by
  simp [exec, execChecksum, h]

theorem exec_checksum_of_error {data : List Byte} {a b : Nat} {r : Fault} (s : State)
    (h : computeChecksum data a b = .error r) : exec (.checksum data a b) s = .fault r := by
  simp [exec, execChecksum, h]

/-- Settles O18: the sum of the range is the natural sum narrowed, and a malformed range is the fault value. -/
theorem checksumReturnsTheSumModulo256 : Obligations.ChecksumReturnsTheSumModulo256 := by
  refine fun data start stop s => ⟨fun hab hb => ?_, fun h => ?_⟩
  · rw [exec_checksum_of_ok s (computeChecksum_of_range hab hb), sumBytes_eq_ofNat_sum, slice_eq_map_getD hb,
      List.map_map, byte_ofNat_mod]
    rfl
  · exact exec_checksum_of_error s (computeChecksum_of_malformed h)

/-! ### The laws of R102 -/

/-- The checksum of a range depends on its bytes alone: not on what stands around them. -/
theorem computeChecksum_append_mid (u v w : List Byte) :
    computeChecksum (u ++ v ++ w) u.length (u.length + v.length) = .ok (sumBytes v) := by
  rw [computeChecksum_of_range (by omega) (by simp), slice_append_mid]

theorem computeChecksum_all (l : List Byte) : computeChecksum l 0 l.length = .ok (sumBytes l) := by
  simpa using computeChecksum_append_mid [] l []

/-- A byte of 0 in the range may be left out. -/
theorem sumBytes_append_zero (u v : List Byte) : sumBytes (u ++ [0] ++ v) = sumBytes (u ++ v) := by
  simp [sumBytes_append, sumBytes_cons]

/-- A range grown by a byte of 0 at its end keeps its checksum. -/
theorem computeChecksum_succ_of_zero {data : List Byte} {a b : Nat} (hab : a ≤ b) (hx : data[b]? = some 0) :
    computeChecksum data a (b + 1) = computeChecksum data a b := by
  obtain ⟨hb, -⟩ := List.getElem?_eq_some_iff.mp hx
  rw [computeChecksum_of_range (by omega) hb, computeChecksum_of_range hab (by omega), slice_succ hab hx]
  simpa using sumBytes_append_zero (slice data a b) []

/-- One byte of the range changed by 1 changes the sum by 1, also when the byte wraps. -/
theorem sumBytes_slice_set_succ {data : List Byte} {a i e : Nat} {b : Byte} (hai : a ≤ i) (hie : i < e)
    (he : e ≤ data.length) (hb : data[i]? = some b) :
    sumBytes (slice (data.set i (b + 1)) a e) = sumBytes (slice data a e) + 1 := by
  have hset : (data.set i (b + 1))[i]? = some (b + 1) := by
    rw [List.getElem?_set_self (by omega)]
  rw [slice_split hai hie (by simpa using he) hset, slice_split hai hie he hb, slice_set _ le_rfl,
    slice_set_before _ (by omega)]
  simp only [sumBytes_append, sumBytes_cons]
  ac_rfl

theorem sumBytes_slice_concat {data : List Byte} {a m b : Nat} (ham : a ≤ m) (hmb : m ≤ b) (hb : b ≤ data.length) :
    sumBytes (slice data a b) = add8 (sumBytes (slice data a m)) (sumBytes (slice data m b)) := by
  rw [slice_append ham hmb hb, sumBytes_append, add8_eq]

/-- Settles O20: each law is one of the sum, carried over the well-formed range. -/
theorem checksumLaws : Obligations.ChecksumLaws := by
  refine ⟨fun data start stop i b hsi hie he hb => ?_, fun d e start stop hd he hse h => ?_,
    fun data start mid stop hsm hms hs => ?_, fun u v => ?_, fun u v w u' w' _ => ?_, ?_⟩
  · refine ⟨_, computeChecksum_of_range (by omega) he, ?_⟩
    rw [computeChecksum_of_range (by omega) (by simpa using he), sumBytes_slice_set_succ hsi hie he hb]
  · rw [computeChecksum_of_range hse hd, computeChecksum_of_range hse he, sumBytes_perm h]
  · refine ⟨_, _, computeChecksum_of_range hsm (by omega), computeChecksum_of_range hms hs, ?_⟩
    rw [computeChecksum_of_range (by omega) hs, sumBytes_slice_concat hsm hms hs, byte_ofNat_mod, add8]
  · have h := computeChecksum_all (u ++ [0] ++ v)
    have h' := computeChecksum_all (u ++ v)
    simp only [List.length_append, List.length_singleton] at h h'
    rw [h, h', sumBytes_append_zero]
  · rw [computeChecksum_append_mid, computeChecksum_append_mid]
  · exact (computeChecksum_succ_of_zero (by decide) rfl).symm

end Sys2Proof.Machine

/-! SUPPORT. Runs of hardware edges: one edge taken off the front of a run, and the freedom from reset that is left. -/

namespace Sys2Proof.Machine

open Sys2Proof.Safety

theorem sample_rst_of_noResetFor {m : Nat} {s : State} (h : NoResetFor (m + 1) s) : s.sample.rst = false := by
  cases hin : s.inputs with
  | nil => simp [State.sample, hin, Sample.low]
  | cons x rest => simpa [State.sample, hin] using h x (by simp [hin])

/-- What is free of resets for `m + 1` edges is free of them for `m` after an edge, which uses up one sample. -/
theorem noResetFor_tick {m : Nat} {s u : State} (h : NoResetFor (m + 1) s) (hin : u.inputs = s.inputs) :
    NoResetFor m u.tick := by
  intro x hx
  rw [State.tick_inputs, hin] at hx
  cases hs : s.inputs with
  | nil => simp [hs] at hx
  | cons y rest =>
    rw [hs] at hx
    exact h x (by rw [hs]; exact List.mem_cons_of_mem y hx)

/-- A run that begins with a micro-step of the phase in `PH`: `v` is where the rest of the run ends. -/
theorem run_succ_of_exec {m : Nat} {s u v t : State} {p : Phase} (hi : s.issue = none) (hr : NoResetFor (m + 1) s)
    (hp : s.ph = p) (h : exec p.instr s = .next u) (hrun : Host.Core.run Sys2Proof.core m u.tick = .next v)
    (hv : v = t) : Host.Core.run Sys2Proof.core (m + 1) s = .next t := by
  have hstep : step s = .next u.tick := by
    rw [step_of_hardware (sample_rst_of_noResetFor hr) hi, microStep_of_phase hp, h, afterEdge_next]
  have hcore : Sys2Proof.core.step s = .next u.tick := hstep
  subst hv
  simp only [Host.Core.run, hcore, hrun]

end Sys2Proof.Machine

/-! SUPPORT. The checksum phase run as steps (O27): from any byte of the body on, `ACC` grows by the sum of the bytes that
are left. -/

namespace Sys2Proof.Machine

open Sys2Proof.Safety

/-- The rest of the checksum phase when `m` bytes are left: by induction on `m`, a byte at each edge, then the exit. -/
theorem run_sumPhase {m : Nat} {s : State} (hc : s.cfg.WellFormed) (hi : s.issue = none) (hp : s.ph = .sum)
    (hleft : s.bi.toNat + m = s.cfg.n - 1) (hr : NoResetFor (m + 1) s) :
    Host.Core.run Sys2Proof.core (m + 1) s = .next { s with
      ph := .crc, bi := 0, k := 0, acc := s.acc + sumBytes (slice s.cfg.payload s.bi.toNat (s.cfg.n - 1))
      inputs := s.inputs.drop (m + 1), clk := s.clk + (m + 1) } := by
  induction m generalizing s with
  | zero =>
    refine run_succ_of_exec hi hr hp (execPhSum_exit hleft) rfl ?_
    simp [← hleft, slice_self, State.tick, State.goto, State.index, hi]
  | succ m ih =>
    obtain ⟨-, h9, h32, hlen, -⟩ := id hc
    obtain ⟨b, hread, hb⟩ := payloadRead_some hlen (i := s.bi.toNat) (by omega)
    have hbi : (s.bi + 1).toNat = s.bi.toNat + 1 := by bv_omega
    have hbyte : exec .phSum s = .next (s.sumTo (add8 s.acc b) (s.bi + 1)) := execPhSum_byte (by omega) hread
    have hsum : add8 s.acc b + sumBytes (slice s.cfg.payload (s.bi + 1).toNat (s.cfg.n - 1)) =
        s.acc + sumBytes (slice s.cfg.payload s.bi.toNat (s.cfg.n - 1)) := by
      rw [sumBytes_slice_head (by omega) (by omega) hb, hbi, add8_eq, BitVec.add_assoc]
    have hleft' : (s.bi + 1).toNat + m = s.cfg.n - 1 := by omega
    have hrest := ih (s := (s.sumTo (add8 s.acc b) (s.bi + 1)).tick) hc rfl hp hleft' (noResetFor_tick hr rfl)
    refine run_succ_of_exec hi hr hp hbyte hrest ?_
    simp only [State.tick, State.sumTo, hsum, hi, List.drop_tail, Nat.add_assoc, Nat.add_comm 1]

/-- Settles O27: the phase begins with `N-9` bytes left and `ACC` at 0. -/
theorem sumPhaseComputesTheChecksum : Obligations.SumPhaseComputesTheChecksum := by
  intro s hc hi hp hbi hacc hr
  obtain ⟨-, h9, -, hlen, -⟩ := id hc
  refine ⟨_, computeChecksum_of_range (by omega) (by omega), ?_⟩
  have hm : s.cfg.n - 8 = (s.cfg.n - 9) + 1 := by omega
  have h8 : s.bi.toNat = 8 := by rw [hbi]; rfl
  rw [hm] at hr ⊢
  simpa [h8, hacc] using run_sumPhase hc hi hp (by omega) hr

end Sys2Proof.Machine

/-! SUPPORT. An encoder phase at one edge (O11): the exit, the bit, or the stop, with the next state written out. -/

namespace Sys2Proof.Machine

/-- The micro-step that appends bit `K` of a byte, its symbol and event written as `bitsym` and `K = 7` as a number. -/
theorem append_bitKind_advance_eq (s : State) (b : Byte) :
    (s.append (bitKind b s.k.toNat)).advance = { s with
      seq := s.seq ++ [bitsym s.cfg.symtab b s.k.toNat]
      hist := s.hist ++ [.append (bitsym s.cfg.symtab b s.k.toNat).mark (bitsym s.cfg.symtab b s.k.toNat).space]
      bi := if s.k.toNat = 7 then s.bi + 1 else s.bi
      k := if s.k.toNat = 7 then 0 else s.k + 1 } := by
  have hk : s.k.toNat = 7 ↔ s.k = 7 := BitVec.toNat_inj (y := 7)
  simp only [append_advance_eq, State.append_seq, State.append_hist, bitsym, hk]

theorem oneByte_zero (b : Byte) : oneByte b 0 = some b := rfl

theorem oneByte_of_pos {b : Byte} {i : Nat} (h : 0 < i) : oneByte b i = none := by
  simp [oneByte, h.ne']

/-- Settles O11: the three phases are the encoder micro-step on their sources, and its cases are the clauses. -/
theorem encoderPhasesAppendOneBit : Obligations.EncoderPhasesAppendOneBit := by
  simp only [Obligations.EncoderPhasesAppendOneBit, exec_phF1, exec_phF2, exec_phCrc]
  refine ⟨fun s => ⟨encStep_exit, encStep_exit, encStep_exit⟩, fun s b => ?_,
    fun s => ⟨encStep_absent, encStep_absent, ?_⟩⟩
  · rw [← append_bitKind_advance_eq s b]
    refine ⟨encStep_bit, encStep_bit, ?_⟩
    rintro h rfl
    exact encStep_bit (by omega) (by rw [h, oneByte_zero])
  · exact fun h => encStep_absent (by omega) (oneByte_of_pos (by omega))

end Sys2Proof.Machine

/-! SUPPORT. ENCODE_BITS is the symbols of its range, byte by byte and bit 0 first (O19), and the laws that follow from it
(O21): the encoder adds over concatenation and, where the two data symbols differ, gives its bytes away. -/

namespace Sys2Proof.Machine

/-! ### The symbol of a bit gives the bit away -/

/-- The symbol of a bit as R76 computes it. -/
theorem bitsym_eq_ite (t : SymTab) (b : Byte) (k : Nat) :
    bitsym t b k = if b.toNat / 2 ^ k % 2 = 1 then t.oneBit else t.zeroBit := by
  rcases Nat.mod_two_eq_zero_or_one (b.toNat / 2 ^ k) with h | h
  · rw [bitsym, bitKind_of_zero h, h]
    rfl
  · rw [bitsym, bitKind_of_one h, if_pos h]
    rfl

theorem bitsym_eq_oneBit_iff {t : SymTab} (ht : t.zeroBit ≠ t.oneBit) {b : Byte} {k : Nat} :
    bitsym t b k = t.oneBit ↔ bit b k = true := by
  cases hb : bit b k <;> simp [bitsym, bitKind, symbolOf, hb, ht]

theorem bit_eq_of_bitsym_eq {t : SymTab} {b c : Byte} {k : Nat} (ht : t.zeroBit ≠ t.oneBit)
    (h : bitsym t b k = bitsym t c k) : bit b k = bit c k :=
  Bool.eq_iff_iff.mpr (by rw [← bitsym_eq_oneBit_iff ht, h, bitsym_eq_oneBit_iff ht])

theorem encodeByte_injective {t : SymTab} (ht : t.zeroBit ≠ t.oneBit) : Function.Injective (encodeByte t) := by
  intro b c h
  apply BitVec.eq_of_getLsbD_eq
  intro k hk
  have hsym : some (bitsym t b k) = some (bitsym t c k) := by
    rw [← encodeByte_getElem? t b hk, ← encodeByte_getElem? t c hk, h]
  exact bit_eq_of_bitsym_eq ht (Option.some.inj hsym)

theorem encodeBytes_injective {t : SymTab} (ht : t.zeroBit ≠ t.oneBit) : Function.Injective (encodeBytes t) := by
  intro l m h
  induction l generalizing m with
  | nil => exact (List.length_eq_zero_iff.mp (by simpa using (congrArg List.length h).symm)).symm
  | cons b l ih =>
    cases m with
    | nil => simpa using congrArg List.length h
    | cons c m =>
      rw [encodeBytes_cons, encodeBytes_cons] at h
      obtain ⟨hbyte, hrest⟩ := List.append_inj h (by simp)
      rw [encodeByte_injective ht hbyte, ih hrest]

/-! ### ENCODE_BITS -/

theorem encodeRange_of_range (t : SymTab) {data : List Byte} {a b : Nat} (hab : a ≤ b) (hb : b ≤ data.length) :
    encodeRange t data a b = .ok (encodeBytes t (slice data a b)) :=
  if_pos ⟨hab, hb⟩

theorem encodeRange_of_malformed (t : SymTab) {data : List Byte} {a b : Nat} (h : ¬ (a ≤ b ∧ b ≤ data.length)) :
    encodeRange t data a b = .error (.preconditionViolation .encodeBits a b data.length) :=
  if_neg h

theorem eq_encodeBytes_of_encodeRange {t : SymTab} {data : List Byte} {a b : Nat} {x : List TimedSymbol}
    (h : encodeRange t data a b = .ok x) : x = encodeBytes t (slice data a b) := by
  by_cases hab : a ≤ b ∧ b ≤ data.length
  · rw [encodeRange_of_range t hab.1 hab.2] at h
    exact (Except.ok.inj h).symm
  · rw [encodeRange_of_malformed t hab] at h
    cases h

theorem encodeBytes_slice_length (t : SymTab) {data : List Byte} {a b : Nat} (hb : b ≤ data.length) :
    (encodeBytes t (slice data a b)).length = 8 * (b - a) := by
  rw [encodeBytes_length, slice_length hb]

/-- The symbol of bit `k` of byte `i` stands at `8*(i - start) + k` (R112). -/
theorem encodeBytes_slice_getElem? (t : SymTab) {data : List Byte} {a b i k : Nat} {x : Byte} (hai : a ≤ i) (hib : i < b)
    (hk : k < 8) (hx : data[i]? = some x) :
    (encodeBytes t (slice data a b))[8 * (i - a) + k]? = some (bitsym t x k) :=
  encodeBytes_getElem? t (by rw [slice_getElem?, Nat.add_sub_cancel' hai, if_pos hib, hx]) hk

theorem exec_encodeBits_of_ok {data : List Byte} {a b : Nat} {l : List TimedSymbol} {s : State}
    (h : encodeRange s.cfg.symtab data a b = .ok l) :
    exec (.encodeBits data a b) s = .next (s.returning (.symbols l)) := by
  simp [exec, execEncodeBits, h]

theorem exec_encodeBits_of_error {data : List Byte} {a b : Nat} {r : Fault} {s : State}
    (h : encodeRange s.cfg.symtab data a b = .error r) : exec (.encodeBits data a b) s = .fault r := by
  simp [exec, execEncodeBits, h]

/-- Where ENCODE_BITS completes, it returns what the encoder gives for the table of the state, which is all it reads. -/
theorem ret_of_exec_encodeBits {data : List Byte} {a b : Nat} {s t : State}
    (h : exec (.encodeBits data a b) s = .next t) :
    t.ret = some (.symbols (encodeBytes s.cfg.symtab (slice data a b))) := by
  cases hx : encodeRange s.cfg.symtab data a b with
  | ok l =>
    rw [exec_encodeBits_of_ok hx, eq_encodeBytes_of_encodeRange hx] at h
    injection h with h
    rw [← h, State.returning_ret]
  | error r =>
    rw [exec_encodeBits_of_error hx] at h
    cases h

/-- Settles O19: the value is the encoder's for the range, and its symbol at each position is that of the byte's bit. -/
theorem encodeBitsReturnsTheSymbolsOfTheRange : Obligations.EncodeBitsReturnsTheSymbolsOfTheRange := by
  refine fun data start stop s => ⟨fun hab hb => ?_, fun h => ?_⟩
  · refine ⟨_, exec_encodeBits_of_ok (encodeRange_of_range _ hab hb), encodeBytes_slice_length _ hb, ?_⟩
    intro i k hai hib hk
    have hi : i < data.length := by omega
    rw [encodeBytes_slice_getElem? _ hai hib hk (List.getElem?_eq_getElem hi), bitsym_eq_ite,
      List.getD_eq_getElem data 0 hi]
  · exact exec_encodeBits_of_error (encodeRange_of_malformed _ h)

/-- Settles O21: each law is one of `encodeBytes`, carried over the well-formed range. -/
theorem encoderLaws : Obligations.EncoderLaws := by
  refine ⟨fun t data start stop hab hb => ?_, fun t data start mid stop hsm hms hs => ?_,
    fun t d e x a b a' b' ht hd he => ?_, fun data a b s u s' u' htab hs hu => ?_⟩
  · exact ⟨_, encodeRange_of_range t hab hb, encodeBytes_slice_length t hb,
      fun i k x hai hib hk hx => encodeBytes_slice_getElem? t hai hib hk hx⟩
  · refine ⟨_, _, encodeRange_of_range t hsm (by omega), encodeRange_of_range t hms hs, ?_⟩
    rw [encodeRange_of_range t (by omega) hs, slice_append hsm hms hs, encodeBytes_append]
  · apply encodeBytes_injective ht
    rw [← eq_encodeBytes_of_encodeRange hd, ← eq_encodeBytes_of_encodeRange he]
  · rw [ret_of_exec_encodeBits hs, ret_of_exec_encodeBits hu, htab]

end Sys2Proof.Machine

/-! SUPPORT. An encoder phase run as steps (O26): from any position `(BI, K)` on, the symbols that are left of the range, one
at each edge, then the exit. -/

namespace Sys2Proof.Machine

open Sys2Proof.Safety

/-- The symbols of a tail of the bytes: those of the bytes in front are left out. -/
theorem encodeBytes_drop (t : SymTab) (l : List Byte) (a : Nat) :
    encodeBytes t (l.drop a) = (encodeBytes t l).drop (8 * a) := by
  induction a generalizing l with
  | zero => simp
  | succ a ih =>
    cases l with
    | nil => simp
    | cons b l =>
      rw [List.drop_succ_cons, ih, encodeBytes_cons, Nat.mul_add_one, Nat.add_comm, ← List.drop_drop,
        List.drop_left' (encodeByte_length t b)]

/-- The state at the end `stop` of an encoder's range, after one edge for each of the symbols `l` appended on the way. -/
def State.encoded (s : State) (stop : BitVec 5) (l : List TimedSymbol) : State :=
  { s with
    bi := stop
    k := 0
    seq := s.seq ++ l
    hist := s.hist ++ l.map appendEvent
    inputs := s.inputs.drop l.length
    clk := s.clk + l.length }

theorem encoded_nil {s : State} (hk : s.k = 0) : s.encoded s.bi [] = s := by
  simp [State.encoded, ← hk]

/-- The first of the symbols is appended by the encoder micro-step at the first edge. -/
theorem encoded_cons {s : State} (stop : BitVec 5) (b : Byte) (l : List TimedSymbol) (hi : s.issue = none) :
    s.encoded stop (bitsym s.cfg.symtab b s.k.toNat :: l) =
      (s.append (bitKind b s.k.toNat)).advance.tick.encoded stop l := by
  simp [State.encoded, append_bitKind_advance_eq, State.tick, appendEvent, hi, Nat.add_assoc, Nat.add_comm 1]

/-- The symbols that are left at the position `8*i + k` begin with that of bit `k` of byte `i`. -/
theorem bitsym_of_drop_eq_cons {t : SymTab} {l : List Byte} {i k : Nat} {x : TimedSymbol} {rest : List TimedSymbol}
    (hk : k < 8) (h : (encodeBytes t l).drop (8 * i + k) = x :: rest) : ∃ b, l[i]? = some b ∧ x = bitsym t b k := by
  have hx : (encodeBytes t l)[8 * i + k]? = some x := by rw [← List.head?_drop, h, List.head?_cons]
  obtain ⟨hpos, -⟩ := List.getElem?_eq_some_iff.mp hx
  rw [encodeBytes_length] at hpos
  have hb : l[i]? = some l[i] := List.getElem?_eq_getElem (by omega)
  rw [encodeBytes_getElem? t hb hk] at hx
  exact ⟨_, hb, (Option.some.inj hx).symm⟩

/-- The row of `p`, with configuration `c` and accumulator `a`, is the encoder over the bytes `l`, which end at `stop`: it
appends the bit at `(BI, K)`, and at `stop` it takes its exit (R111). -/
structure EncodesBytes (p : Phase) (c : Config) (a : Byte) (l : List Byte) (stop : BitVec 5)
    (exit : State → State) : Prop where
  length : l.length = stop.toNat
  bit : ∀ {s : State} {b : Byte}, s.cfg = c → s.acc = a → s.bi.toNat < stop.toNat → l[s.bi.toNat]? = some b →
    exec p.instr s = .next (s.append (bitKind b s.k.toNat)).advance
  atEnd : ∀ {s : State}, s.cfg = c → s.bi = stop → exec p.instr s = .next (exit s)

/-- An encoder phase runs its range: by induction on the symbols that are left from the position `8*BI + K` on, one at each
edge, then the exit. -/
theorem run_encoderPhase {p : Phase} {l : List Byte} {stop : BitVec 5} {exit : State → State} {s : State}
    {rest : List TimedSymbol} (henc : EncodesBytes p s.cfg s.acc l stop exit) (hi : s.issue = none) (hp : s.ph = p)
    (hrest : (encodeBytes s.cfg.symtab l).drop (8 * s.bi.toNat + s.k.toNat) = rest)
    (hpos : 8 * s.bi.toNat + s.k.toNat ≤ 8 * stop.toNat) (hr : NoResetFor (rest.length + 1) s) :
    Host.Core.run Sys2Proof.core (rest.length + 1) s = .next (exit (s.encoded stop rest)).tick := by
  induction rest generalizing s with
  | nil =>
    have hend := List.drop_eq_nil_iff.mp hrest
    rw [encodeBytes_length, henc.length] at hend
    obtain rfl : s.bi = stop := by bv_omega
    have hk : s.k = 0 := by bv_omega
    refine run_succ_of_exec hi hr hp (henc.atEnd rfl rfl) rfl ?_
    rw [encoded_nil hk]
  | cons x rest ih =>
    obtain ⟨b, hb, rfl⟩ := bitsym_of_drop_eq_cons s.k.isLt hrest
    obtain ⟨hlt, -⟩ := List.getElem?_eq_some_iff.mp hb
    have hbi : s.bi.toNat < stop.toNat := henc.length ▸ hlt
    obtain ⟨hnext, -⟩ := append_advance_position (s := s) (bitKind b s.k.toNat) (by omega)
    have hrest' : (encodeBytes s.cfg.symtab l).drop (8 * s.bi.toNat + s.k.toNat + 1) = rest := by
      rw [← List.drop_drop, hrest, List.drop_one, List.tail_cons]
    have hrun := ih (s := (s.append (bitKind b s.k.toNat)).advance.tick) (by simpa using henc) rfl (by simpa using hp)
      (by simpa [← hnext] using hrest') (by rw [State.tick_bi, State.tick_k]; omega) (noResetFor_tick hr (by simp))
    exact run_succ_of_exec hi hr hp (henc.bit rfl rfl hbi hb) hrun (by rw [encoded_cons stop b rest hi])

/-- A run from the first bit of a byte on appends the symbols of the bytes from there on. -/
theorem run_encoderPhase_from {p : Phase} {l : List Byte} {stop : BitVec 5} {exit : State → State} {s : State} {m : Nat}
    (henc : EncodesBytes p s.cfg s.acc l stop exit) (hi : s.issue = none) (hp : s.ph = p) (hk : s.k = 0)
    (hm : s.bi.toNat + m = stop.toNat) (hr : NoResetFor (8 * m + 1) s) :
    Host.Core.run Sys2Proof.core (8 * m + 1) s =
      .next (exit (s.encoded stop (encodeBytes s.cfg.symtab (l.drop s.bi.toNat)))).tick := by
  have hlen : (encodeBytes s.cfg.symtab (l.drop s.bi.toNat)).length = 8 * m := by
    rw [encodeBytes_length, List.length_drop, henc.length, ← hm, Nat.add_sub_cancel_left]
  have hk0 : s.k.toNat = 0 := by rw [hk]; rfl
  rw [← hlen] at hr ⊢
  refine run_encoderPhase henc hi hp ?_ (by omega) hr
  rw [hk0, Nat.add_zero, encodeBytes_drop]

/-! ### The three activations -/

/-- Bytes of the store below `N` are what `MemRead` reads (R50). -/
theorem payloadRead_of_slice {c : Config} {stop i : Nat} {b : Byte} (hstop : stop ≤ c.n)
    (hb : (slice c.payload 0 stop)[i]? = some b) : payloadRead c i = some b := by
  rw [slice_getElem?, Nat.zero_add] at hb
  obtain ⟨hi, hb⟩ := Option.ite_none_right_eq_some.mp hb
  rw [payloadRead_of_lt (by omega), hb]

theorem encodesBytes_f1 {c : Config} (hc : c.WellFormed) (a : Byte) :
    EncodesBytes .f1 c a (slice c.payload 0 8) 8 fun s => s.goto .pause := by
  obtain ⟨-, h9, -, hlen, -⟩ := hc
  refine ⟨slice_length (by omega), ?_, ?_⟩
  · rintro s b rfl - hbi hb
    exact (exec_phF1 s).trans (encStep_bit hbi.ne (payloadRead_of_slice (by omega) hb))
  · rintro s - h
    exact (exec_phF1 s).trans (encStep_exit (congrArg BitVec.toNat h))

theorem encodesBytes_f2 {c : Config} (hc : c.WellFormed) (a : Byte) :
    EncodesBytes .f2 c a (slice c.payload 0 (c.n - 1)) (BitVec.ofNat 5 (c.n - 1)) fun s => (s.sumTo 0 8).goto .sum := by
  obtain ⟨-, h9, h32, hlen, -⟩ := hc
  have hstop : (BitVec.ofNat 5 (c.n - 1)).toNat = c.n - 1 := by
    rw [BitVec.toNat_ofNat, Nat.mod_eq_of_lt (by omega)]
  refine ⟨(slice_length (by omega)).trans hstop.symm, ?_, ?_⟩
  · rintro s b rfl - hbi hb
    exact (exec_phF2 s).trans (encStep_bit (by omega) (payloadRead_of_slice (by omega) hb))
  · rintro s rfl h
    exact (exec_phF2 s).trans (encStep_exit ((congrArg BitVec.toNat h).trans hstop))

theorem encodesBytes_crc (c : Config) (a : Byte) : EncodesBytes .crc c a [a] 1 fun s => s.goto .endPhase := by
  refine ⟨rfl, ?_, ?_⟩
  · rintro s b - rfl hbi hb
    exact (exec_phCrc s).trans (encStep_bit hbi.ne hb)
  · rintro s - h
    exact (exec_phCrc s).trans (encStep_exit (congrArg BitVec.toNat h))

/-- The last bytes of a range of the store. -/
theorem drop_slice_zero (data : List Byte) (a b : Nat) : (slice data 0 b).drop a = slice data a b := by
  rw [slice, slice, List.drop_zero]

/-- Settles O26: each activation begins at the first bit of its range. -/
theorem encoderPhasesRunTheirRange : Obligations.EncoderPhasesRunTheirRange := by
  intro s hc hi hk
  obtain ⟨-, h9, h32, hlen, -⟩ := id hc
  refine ⟨fun hp hbi hr => ?_, fun hp hbi hr => ?_, fun hp hbi hr => ?_⟩
  · have h0 : s.bi.toNat = 0 := congrArg BitVec.toNat hbi
    have hl : (slice s.cfg.payload 0 8).length = 8 := slice_length (by omega)
    have hrun := run_encoderPhase_from (m := 8) (encodesBytes_f1 hc s.acc) hi hp hk (congrArg (· + 8) h0) hr
    rw [h0, List.drop_zero] at hrun
    simpa [State.encoded, State.goto, State.tick, hi, hk, hl, Nat.add_assoc] using hrun
  · have h8 : s.bi.toNat = 8 := congrArg BitVec.toNat hbi
    have hl : (slice s.cfg.payload 8 (s.cfg.n - 1)).length = s.cfg.n - 9 := slice_length (by omega)
    have hrun := run_encoderPhase_from (m := s.cfg.n - 9) (encodesBytes_f2 hc s.acc) hi hp hk (by simp; omega) hr
    rw [h8, drop_slice_zero] at hrun
    simpa [State.encoded, State.goto, State.sumTo, State.tick, hi, hk, hl, Nat.add_assoc] using hrun
  · have h0 : s.bi.toNat = 0 := congrArg BitVec.toNat hbi
    have hrun := run_encoderPhase_from (m := 1) (encodesBytes_crc s.cfg s.acc) hi hp hk (congrArg (· + 1) h0) hr
    rw [h0, List.drop_zero] at hrun
    simpa [State.encoded, State.goto, State.tick, hi, hk, Nat.add_assoc] using hrun

end Sys2Proof.Machine

/-! SUPPORT. The three waits keep every element for any number of edges (O42): the micro-step of a waiting phase keeps the
state, and what the schedule holds back at the coming edges it holds back at those after the first. -/

namespace Sys2Proof.Machine

open Sys2Proof.Safety

/-- What holds of the samples of the next edges, and of a sample with all ports low, holds of the sample of this edge. -/
theorem sample_of_take {P : Sample → Prop} {m : Nat} {s : State} (hlow : P Sample.low)
    (h : ∀ x ∈ s.inputs.take (m + 1), P x) : P s.sample := by
  cases hin : s.inputs with
  | nil => simpa [State.sample, hin] using hlow
  | cons x rest => simpa [State.sample, hin] using h x (by simp [hin])

/-- What holds of the samples of the next `m + 1` edges holds, after an edge, of those of the next `m`. -/
theorem take_inputs_tick {P : Sample → Prop} {m : Nat} {s : State} (h : ∀ x ∈ s.inputs.take (m + 1), P x) :
    ∀ x ∈ s.tick.inputs.take m, P x := by
  intro x hx
  rw [State.tick_inputs] at hx
  cases hin : s.inputs with
  | nil => simp [hin] at hx
  | cons y rest =>
    rw [hin] at hx
    exact h x (by rw [hin]; exact List.mem_cons_of_mem y hx)

/-- No event enables the phase in `PH` at the next `m` edges: the three waits of R123, R134 and R136. -/
def Waiting (m : Nat) (s : State) : Prop :=
  (s.ph = .idle ∧ ∀ x ∈ s.inputs.take m, x.cycleStart = false) ∨
  (s.ph = .wait ∧ ∀ x ∈ s.inputs.take m, answerOf x = none) ∨ s.ph = .fault

theorem exec_phase_of_waiting {m : Nat} {s : State} (h : Waiting (m + 1) s) : exec s.ph.instr s = .next s := by
  rcases h with ⟨hp, hin⟩ | ⟨hp, hin⟩ | hp <;> rw [hp]
  · exact execPhIdle_hold (sample_of_take (P := fun x => x.cycleStart = false) rfl hin)
  · exact execPhWait_hold (sample_of_take (P := fun x => answerOf x = none) rfl hin)
  · rfl

theorem waiting_tick {m : Nat} {s : State} (h : Waiting (m + 1) s) : Waiting m s.tick :=
  h.imp (.imp_right take_inputs_tick) (.imp_left (.imp_right take_inputs_tick))

/-- Settles O42: by induction on the number of edges, each of which keeps the state but for its sample. -/
theorem waitsKeepEveryElement : Obligations.WaitsKeepEveryElement := by
  intro m s hi hr hw
  induction m generalizing s with
  | zero => rfl
  | succ m ih =>
    have hrest := ih s.tick rfl (noResetFor_tick hr rfl) (waiting_tick hw)
    refine run_succ_of_exec hi hr rfl (exec_phase_of_waiting hw) hrest ?_
    simp [State.tick, hi, Nat.add_assoc, Nat.add_comm 1]

end Sys2Proof.Machine

/-! SUPPORT. TRANSMIT is the run of its micro-steps (O30): with the edge that ends each of them counted to the next, the cycle
inside TRANSMIT and a run of steps pass through the same states. -/

namespace Sys2Proof.Machine

theorem run_succ_of_step {m : Nat} {s u t : State} (h : step s = .next u)
    (hrun : Host.Core.run Sys2Proof.core m u = .next t) : Host.Core.run Sys2Proof.core (m + 1) s = .next t := by
  have hcore : Sys2Proof.core.step s = .next u := h
  simp only [Host.Core.run, hcore, hrun]

/-- Everything the rest of a cycle can do before its next micro-step when it gives a next state: end, be reset, or go on. -/
theorem cycleFrom_succ_cases {fuel : Nat} {s t : State} (h : cycleFrom (fuel + 1) s = .next t) :
    t = s ∨ (s.tick.sample.rst = true ∧ t = s.tick.cleared) ∨
    (s.tick.sample.rst = false ∧ ∃ u, microStep s.tick = .next u ∧ cycleFrom fuel u = .next t) := by
  unfold cycleFrom at h
  split at h
  · cases h; exact .inl rfl
  · split at h
    next hr => cases h; exact .inr (.inl ⟨hr, rfl⟩)
    next hr =>
      refine .inr (.inr ⟨Bool.eq_false_of_not_eq_true hr, ?_⟩)
      cases hm : microStep s.tick with
      | next u => exact ⟨u, rfl, by simpa [hm] using h⟩
      | fault r | refused r => simp [hm] at h

/-- What the rest of a cycle does from `s`, some number of steps do after the edge that ends `s`'s micro-step. -/
theorem exists_run_of_cycleFrom {fuel : Nat} {s t : State} (h : cycleFrom fuel s = .next t) :
    ∃ m, Host.Core.run Sys2Proof.core m s.tick = .next t.tick := by
  induction fuel generalizing s with
  | zero => cases h; exact ⟨0, rfl⟩
  | succ fuel ih =>
    rcases cycleFrom_succ_cases h with rfl | ⟨hr, rfl⟩ | ⟨hr, u, hm, hu⟩
    · exact ⟨0, rfl⟩
    · exact ⟨1, run_succ_of_step (step_of_reset hr) rfl⟩
    · obtain ⟨m, hrun⟩ := ih hu
      have hstep : step s.tick = .next u.tick := by rw [step_of_hardware hr rfl, hm, afterEdge_next]
      exact ⟨m + 1, run_succ_of_step hstep hrun⟩

theorem exec_transmit_of_idle {s : State} (hidle : s.ph = .idle) :
    exec .transmit s = cycleFrom (9 * s.cfg.n + 1 + s.inputs.length) s.startCycle :=
  if_pos hidle

/-- A hardware edge in `PH_IDLE` that raises `cycle_start` (R123). -/
theorem step_of_cycleStart {s : State} (hi : s.issue = none) (hidle : s.ph = .idle) (hr : s.sample.rst = false)
    (hc : s.sample.cycleStart = true) : step s = .next s.startCycle.tick := by
  have hmove : microStep s = .next s.startCycle := (microStep_of_phase hidle).trans (execPhIdle_start hc)
  rw [step_of_hardware hr hi, hmove, afterEdge_next]

/-- Settles O30: the first step is the cycle start, and the steps after it are the rest of the cycle. -/
theorem transmitIsTheRunOfItsMicroSteps : Obligations.TransmitIsTheRunOfItsMicroSteps := by
  intro s t hi hidle hr hc h
  rw [exec_transmit_of_idle hidle] at h
  obtain ⟨m, hrun⟩ := exists_run_of_cycleFrom h
  exact ⟨m + 1, by omega, run_succ_of_step (step_of_cycleStart hi hidle hr hc) hrun⟩

end Sys2Proof.Machine

/-! SUPPORT. A send cycle as steps of the machine (O31): the runs of its phases put end to end, then the wait and the
completion. -/

namespace Sys2Proof.Machine

open Sys2Proof.Safety

theorem run_trans {m k : Nat} {s t u : State} (h : Host.Core.run Sys2Proof.core m s = .next t)
    (h' : Host.Core.run Sys2Proof.core k t = .next u) : Host.Core.run Sys2Proof.core (m + k) s = .next u := by
  induction m generalizing s with
  | zero => cases h; simpa using h'
  | succ m ih =>
    rw [Nat.succ_add]
    simp only [Host.Core.run] at h ⊢
    cases hs : Sys2Proof.core.step s with
    | next v => rw [hs] at h; exact ih h
    | fault r | refused r => simp [hs] at h

/-- The one edge of a phase whose row gives a next state. -/
theorem run_one_of_exec {s u : State} {p : Phase} (hi : s.issue = none) (hr : NoResetFor 1 s) (hp : s.ph = p)
    (h : exec p.instr s = .next u) : Host.Core.run Sys2Proof.core 1 s = .next u.tick :=
  run_succ_of_exec hi hr hp h rfl rfl

theorem noResetFor_mono {m k : Nat} {s : State} (h : NoResetFor m s) (hk : k ≤ m) : NoResetFor k s :=
  fun x hx => h x (List.take_subset_take_left s.inputs hk hx)

/-- What is free of resets for `m + k` edges is free of them for `k` once `m` samples are used up. -/
theorem noResetFor_drop {m k : Nat} {s t : State} (h : NoResetFor (m + k) s) (hin : t.inputs = s.inputs.drop m) :
    NoResetFor k t := by
  intro x hx
  rw [hin, List.take_drop] at hx
  exact h x (List.mem_of_mem_drop hx)

/-- A schedule that begins with samples without reset. -/
theorem noResetFor_of_append {m : Nat} {s : State} {l rest : List Sample} (hin : s.inputs = l ++ rest)
    (hl : ∀ x ∈ l, x.rst = false) (hm : l.length = m) : NoResetFor m s := by
  intro x hx
  rw [hin, ← hm, List.take_left] at hx
  exact hl x hx

/-! ### Stations of the frame program -/

/-- The state of a cycle `m` edges later, in the phase `p` at the first bit of byte `b`, with the symbols `l` appended. -/
def State.later (s : State) (m : Nat) (p : Phase) (b : BitVec 5) (a : Byte) (l : List TimedSymbol) : State :=
  { s with
    ph := p
    bi := b
    k := 0
    acc := a
    seq := s.seq ++ l
    hist := s.hist ++ l.map appendEvent
    issue := none
    inputs := s.inputs.drop m
    clk := s.clk + m }

theorem later_later (s : State) (m m' : Nat) (p p' : Phase) (b b' : BitVec 5) (a a' : Byte) (l l' : List TimedSymbol) :
    (s.later m p b a l).later m' p' b' a' l' = s.later (m + m') p' b' a' (l ++ l') := by
  simp [State.later, Nat.add_assoc]

/-- At hardware edges `m` steps bring `s` to that station. -/
def Reaches (s : State) (m : Nat) (p : Phase) (b : BitVec 5) (a : Byte) (l : List TimedSymbol) : Prop :=
  s.issue = none → NoResetFor m s → Host.Core.run Sys2Proof.core m s = .next (s.later m p b a l)

theorem Reaches.trans {s : State} {m m' : Nat} {p p' : Phase} {b b' : BitVec 5} {a a' : Byte} {l l' : List TimedSymbol}
    (h : Reaches s m p b a l) (h' : Reaches (s.later m p b a l) m' p' b' a' l') :
    Reaches s (m + m') p' b' a' (l ++ l') := by
  intro hi hr
  rw [← later_later]
  exact run_trans (h hi (noResetFor_mono hr (by omega))) (h' rfl (noResetFor_drop hr rfl))

section
variable {s : State}

theorem reaches_f1 (hp : s.ph = .hdr1) : Reaches s 1 .f1 0 s.acc [s.cfg.symtab.header] := by
  intro hi hr
  rw [run_one_of_exec hi hr hp rfl]
  simp [State.later, State.append, State.index, State.goto, State.tick, symbolOf, appendEvent]

theorem reaches_pause (hc : s.cfg.WellFormed) (hp : s.ph = .f1) (hbi : s.bi = 0) (hk : s.k = 0) :
    Reaches s 65 .pause 8 s.acc (encodeBytes s.cfg.symtab (slice s.cfg.payload 0 8)) := by
  intro hi hr
  obtain ⟨hrun, -⟩ := encoderPhasesRunTheirRange s hc hi hk
  rw [hrun hp hbi hr, State.later, hk, hi]

theorem reaches_hdr2 (hp : s.ph = .pause) (hk : s.k = 0) : Reaches s 1 .hdr2 s.bi s.acc [s.cfg.symtab.pause] := by
  intro hi hr
  rw [run_one_of_exec hi hr hp rfl]
  simp [State.later, State.append, State.goto, State.tick, symbolOf, appendEvent, hk]

theorem reaches_f2 (hp : s.ph = .hdr2) : Reaches s 1 .f2 8 s.acc [s.cfg.symtab.header] := by
  intro hi hr
  rw [run_one_of_exec hi hr hp rfl]
  simp [State.later, State.append, State.index, State.goto, State.tick, symbolOf, appendEvent]

theorem reaches_sum (hc : s.cfg.WellFormed) (hp : s.ph = .f2) (hbi : s.bi = 8) (hk : s.k = 0) :
    Reaches s (8 * (s.cfg.n - 9) + 1) .sum 8 0 (encodeBytes s.cfg.symtab (slice s.cfg.payload 8 (s.cfg.n - 1))) := by
  intro hi hr
  obtain ⟨-, hrun, -⟩ := encoderPhasesRunTheirRange s hc hi hk
  rw [hrun hp hbi hr, State.later, hk, hi]

theorem reaches_crc (hc : s.cfg.WellFormed) (hp : s.ph = .sum) (hbi : s.bi = 8) (hacc : s.acc = 0) :
    Reaches s (s.cfg.n - 8) .crc 0 (crcOf s.cfg) [] := by
  intro hi hr
  obtain ⟨x, hx, hrun⟩ := sumPhaseComputesTheChecksum s hc hi hp hbi hacc hr
  obtain ⟨-, h9, -, hlen, -⟩ := hc
  rw [computeChecksum_of_range (by omega) (by omega)] at hx
  cases hx
  simp [hrun, State.later, crcOf, Config.bodyStart, Config.f1Len, Config.bodyEnd, hi]

theorem reaches_endPhase (hc : s.cfg.WellFormed) (hp : s.ph = .crc) (hbi : s.bi = 0) (hk : s.k = 0) :
    Reaches s 9 .endPhase 1 s.acc (encodeBytes s.cfg.symtab [s.acc]) := by
  intro hi hr
  obtain ⟨-, -, hrun⟩ := encoderPhasesRunTheirRange s hc hi hk
  rw [hrun hp hbi hr, State.later, hk, hi]

theorem reaches_send (hp : s.ph = .endPhase) (hk : s.k = 0) :
    Reaches s 1 .send s.bi s.acc [s.cfg.symtab.endSymbol] := by
  intro hi hr
  rw [run_one_of_exec hi hr hp rfl]
  simp [State.later, State.append, State.goto, State.tick, symbolOf, appendEvent, hk]

/-- Frame 1 and its Pause (R124 to R126). -/
theorem reaches_hdr2_of_hdr1 (hc : s.cfg.WellFormed) (hp : s.ph = .hdr1) :
    Reaches s 67 .hdr2 8 s.acc
      ([s.cfg.symtab.header] ++ encodeBytes s.cfg.symtab (slice s.cfg.payload 0 8) ++ [s.cfg.symtab.pause]) :=
  ((reaches_f1 hp).trans (reaches_pause hc rfl rfl rfl)).trans (reaches_hdr2 rfl rfl)

/-- Frame 2 from its Header to the End, with the checksum computed on the way (R127 to R132). -/
theorem reaches_send_of_hdr2 (hc : s.cfg.WellFormed) (hp : s.ph = .hdr2) :
    Reaches s (9 * s.cfg.n - 68) .send 1 (crcOf s.cfg)
      ([s.cfg.symtab.header] ++ encodeBytes s.cfg.symtab (slice s.cfg.payload 8 (s.cfg.n - 1)) ++ [] ++
        encodeBytes s.cfg.symtab [crcOf s.cfg] ++ [s.cfg.symtab.endSymbol]) := by
  have hm : 9 * s.cfg.n - 68 = 1 + (8 * (s.cfg.n - 9) + 1) + (s.cfg.n - 8) + 9 + 1 := by
    obtain ⟨-, h9, -⟩ := hc
    omega
  have hsum := (reaches_f2 hp).trans (reaches_sum hc rfl rfl rfl)
  have hcrc := (hsum.trans (reaches_crc hc rfl rfl rfl)).trans (reaches_endPhase hc rfl rfl rfl)
  exact hm ▸ hcrc.trans (reaches_send rfl rfl)

/-- All phases together append the whole frame (R121), one edge short of `9N`. -/
theorem reaches_send_of_hdr1 (hc : s.cfg.WellFormed) (hp : s.ph = .hdr1) :
    Reaches s (9 * s.cfg.n - 1) .send 1 (crcOf s.cfg) (frame s.cfg) := by
  have hm : 9 * s.cfg.n - 1 = 67 + (9 * s.cfg.n - 68) := by
    obtain ⟨-, h9, -⟩ := hc
    omega
  have hframe : frame s.cfg =
      [s.cfg.symtab.header] ++ encodeBytes s.cfg.symtab (slice s.cfg.payload 0 8) ++ [s.cfg.symtab.pause] ++
      ([s.cfg.symtab.header] ++ encodeBytes s.cfg.symtab (slice s.cfg.payload 8 (s.cfg.n - 1)) ++ [] ++
        encodeBytes s.cfg.symtab [crcOf s.cfg] ++ [s.cfg.symtab.endSymbol]) := by
    simp [frame, Config.f1Len, Config.bodyStart, Config.bodyEnd]
  rw [hm, hframe]
  exact (reaches_hdr2_of_hdr1 hc hp).trans (reaches_send_of_hdr2 hc rfl)

/-- From the first phase of a cycle `9N` edges send the whole frame off (R137, R183), and then the block waits as long as the
peripheral does not answer. -/
theorem run_hdr1_to_wait {w : Nat} (hc : s.cfg.WellFormed) (hi : s.issue = none) (hp : s.ph = .hdr1)
    (hr : NoResetFor (9 * s.cfg.n + w) s) (ha : ∀ x ∈ (s.inputs.drop (9 * s.cfg.n)).take w, answerOf x = none) :
    Host.Core.run Sys2Proof.core (9 * s.cfg.n + w) s =
      .next (s.later (9 * s.cfg.n + w) .wait 1 (crcOf s.cfg) (frame s.cfg)).sendOff := by
  have hn : 9 * s.cfg.n = 9 * s.cfg.n - 1 + 1 := by
    obtain ⟨-, h9, -⟩ := hc
    omega
  have hr' : NoResetFor (9 * s.cfg.n - 1 + 1) s := noResetFor_mono hr (by omega)
  have hframe := reaches_send_of_hdr1 hc hp hi (noResetFor_mono hr' (by omega))
  have hsend := run_trans hframe (run_one_of_exec (p := .send) rfl (noResetFor_drop hr' rfl) rfl rfl)
  have hsent : Host.Core.run Sys2Proof.core (9 * s.cfg.n) s =
      .next (s.later (9 * s.cfg.n) .wait 1 (crcOf s.cfg) (frame s.cfg)).sendOff := by
    rw [hn]
    refine hsend.trans ?_
    simp [State.later, State.sendOff, State.goto, State.tick, Nat.add_assoc]
  have hwait := waitsKeepEveryElement w (s.later (9 * s.cfg.n) .wait 1 (crcOf s.cfg) (frame s.cfg)).sendOff rfl
    (noResetFor_drop hr rfl) (.inr (.inl ⟨rfl, ha⟩))
  refine (run_trans hsent hwait).trans ?_
  simp [State.later, State.sendOff, Nat.add_assoc]

end

/-! ### The whole cycle -/

theorem microStep_of_answer {s : State} {ok : Bool} (hp : s.ph = .wait) (ha : answerOf s.sample = some ok) :
    microStep s = .next ((s.complete ok).goto .idle) :=
  (microStep_of_phase hp).trans (execPhWait_answer ha)

/-- The edge in `PH_WAIT` at which the peripheral answers. -/
theorem step_of_answer {s : State} {ok : Bool} (hi : s.issue = none) (hp : s.ph = .wait) (hr : s.sample.rst = false)
    (ha : answerOf s.sample = some ok) :
    step s = .next ((s.complete ok).goto .idle).tick := by
  rw [step_of_hardware hr hi, microStep_of_answer hp ha, afterEdge_next]

/-- From a cycle start `9N` more edges send the whole frame off, and then the block waits as long as the peripheral does not
answer. -/
theorem run_cycleStart_to_wait {w : Nat} {s : State} (hc : s.cfg.WellFormed) (hi : s.issue = none) (hidle : s.ph = .idle)
    (hstart : s.sample.cycleStart = true) (hr : NoResetFor (9 * s.cfg.n + 1 + w) s)
    (ha : ∀ x ∈ (s.inputs.drop (9 * s.cfg.n + 1)).take w, answerOf x = none) :
    Host.Core.run Sys2Proof.core (9 * s.cfg.n + 1 + w) s = .next { s with
      ph := .wait, bi := 1, k := 0, acc := crcOf s.cfg, seq := frame s.cfg
      hist := s.hist ++ (frame s.cfg).map appendEvent ++ [.send]
      inputs := s.inputs.drop (9 * s.cfg.n + 1 + w), clk := s.clk + (9 * s.cfg.n + 1 + w) } := by
  rw [Nat.add_right_comm] at hr ⊢
  have hstep := step_of_cycleStart hi hidle (sample_rst_of_noResetFor hr) hstart
  rw [startCycle_of_ok (rangesOk_of_wellFormed hc)] at hstep
  rw [← List.drop_tail] at ha
  refine (run_succ_of_step hstep (run_hdr1_to_wait hc rfl rfl (noResetFor_tick hr rfl) ha)).trans ?_
  simp [State.later, State.sendOff, State.tick, hi, Nat.add_assoc, Nat.add_comm 1]

/-- Settles O31: the cycle start, the `9N` edges after it, the waits, and the edge that sees the answer. -/
theorem sendCycleRunsToItsEnd : Obligations.SendCycleRunsToItsEnd := by
  intro s start build rest hc hi hidle hin hlen hstart hsr hbr
  have hlen' : (start :: build).length = 9 * s.cfg.n + 1 := by rw [List.length_cons, hlen]
  have hsample : s.sample = start := by rw [State.sample, hin]; rfl
  have hdrop : s.inputs.drop (9 * s.cfg.n + 1) = rest := by rw [hin, ← hlen', List.drop_left]
  have hlow : ∀ x ∈ start :: build, x.rst = false := List.forall_mem_cons.mpr ⟨hsr, hbr⟩
  refine ⟨?_, fun waits more a ok hrest hw har hans => ?_⟩
  · have hrun := run_cycleStart_to_wait (w := 0) hc hi hidle (hsample ▸ hstart) (noResetFor_of_append hin hlow hlen')
      (by simp)
    rwa [Nat.add_zero, hdrop] at hrun
  · have hm : 9 * s.cfg.n + 2 + waits.length = 9 * s.cfg.n + 1 + waits.length + 1 := by omega
    have hr : NoResetFor (9 * s.cfg.n + 1 + waits.length) s := by
      refine noResetFor_of_append (l := start :: build ++ waits) (rest := a :: more) (by simp [hin, hrest]) ?_
        (by rw [List.length_append, hlen'])
      exact List.forall_mem_append.mpr ⟨hlow, fun x hx => (hw x hx).1⟩
    have hwait : ∀ x ∈ (s.inputs.drop (9 * s.cfg.n + 1)).take waits.length, answerOf x = none := by
      rw [hdrop, hrest, List.take_left]
      exact fun x hx => (hw x hx).2
    have hrun := run_cycleStart_to_wait hc hi hidle (hsample ▸ hstart) hr hwait
    rw [← List.drop_drop, hdrop, hrest, List.drop_left] at hrun
    rw [hm]
    refine (run_trans hrun (run_succ_of_step (step_of_answer hi rfl har hans) rfl)).trans ?_
    simp [State.complete, State.goto, State.tick, hi, Nat.add_assoc]

end Sys2Proof.Machine

/-! SUPPORT. TRANSMIT is one send cycle (O28): where a run of steps stays in one cycle, TRANSMIT goes the same way. -/

namespace Sys2Proof.Machine

open Sys2Proof.Safety

/-- How many send cycles a history has completed: its `Done` events. -/
def doneCount (h : List Event) : Nat :=
  h.countP fun
    | .done _ => true
    | .append _ _ | .send => false

theorem doneCount_le_of_prefix {g h : List Event} (p : g <+: h) : doneCount g ≤ doneCount h :=
  p.sublist.countP_le

theorem doneCount_append (g h : List Event) : doneCount (g ++ h) = doneCount g + doneCount h :=
  List.countP_append

theorem doneCount_appends (l : List TimedSymbol) : doneCount (l.map appendEvent) = 0 := by
  simp [doneCount, appendEvent]

theorem doneCount_send : doneCount [.send] = 0 := rfl

theorem doneCount_done (ok : Bool) : doneCount [.done ok] = 1 := rfl

/-- A hardware edge that gives a next state is a micro-step before the rest of the run. -/
theorem run_succ_cases {m : Nat} {s t : State} (hi : s.issue = none) (hr : NoResetFor (m + 1) s)
    (h : Host.Core.run Sys2Proof.core (m + 1) s = .next t) :
    ∃ u, microStep s = .next u ∧ NoResetFor m u.tick ∧ Host.Core.run Sys2Proof.core m u.tick = .next t := by
  have hstep : Sys2Proof.core.step s = afterEdge (microStep s) := step_of_hardware (sample_rst_of_noResetFor hr) hi
  simp only [Host.Core.run, hstep] at h
  cases hm : microStep s with
  | next u =>
    obtain ⟨-, hin, -⟩ := microStep_keeps hm
    exact ⟨u, rfl, noResetFor_tick hr hin, by simpa [hm] using h⟩
  | fault r | refused r => simp [hm] at h

/-- A run of hardware edges only adds to the history. -/
theorem hist_prefix_of_run {m : Nat} {s t : State} (hi : s.issue = none) (hr : NoResetFor m s)
    (h : Host.Core.run Sys2Proof.core m s = .next t) : s.hist <+: t.hist := by
  induction m generalizing s with
  | zero => cases h; exact List.prefix_rfl
  | succ m ih =>
    obtain ⟨u, hm, hr', hrun⟩ := run_succ_cases hi hr h
    have hrest := ih (s := u.tick) rfl hr' hrun
    exact (microStep_cases hm).hist_grows.1.trans hrest

/-- A sending phase is left for `PH_IDLE` only with a `Done`, and never for `PH_FAULT` (R25, R135). -/
theorem MicroMove.sending_or_done {s u : State} (m : MicroMove s u) (hidle : s.ph ≠ .idle) (hfault : s.ph ≠ .fault) :
    (u.ph ≠ .idle ∧ u.ph ≠ .fault) ∨ ∃ ok, u.hist = s.hist ++ [.done ok] := by
  cases m with
  | waitDone h ok a => exact .inr ⟨ok, rfl⟩
  | idleStart h | idleFailFast h | idleHold h => exact absurd h hidle
  | fault h => exact absurd h hfault
  | f1Bit h | f2Bit h | crcBit h | sumByte h | waitHold h => exact .inl (by simp [h])
  | hdr1 | f1Exit | pause | hdr2 | f2Exit | sumExit | crcExit | endPhase | send => exact .inl (by simp)

/-- Where a run from a sending phase completes no cycle, the rest of the cycle inside TRANSMIT goes the same way: it passes
through the run's states and on from the last. -/
theorem cycleFrom_of_run {m fuel : Nat} {s t u : State} (hidle : s.ph ≠ .idle) (hfault : s.ph ≠ .fault)
    (hr : NoResetFor (m + 1) s.tick) (hrun : Host.Core.run Sys2Proof.core m s.tick = .next t)
    (hdone : doneCount t.hist = doneCount s.hist) (hm : microStep t = .next u) :
    cycleFrom (m + 1 + fuel) s = cycleFrom fuel u := by
  induction m generalizing s with
  | zero =>
    cases hrun
    rw [Nat.zero_add, Nat.add_comm]
    exact cycleFrom_of_next fuel hidle hfault (sample_rst_of_noResetFor hr) hm
  | succ m ih =>
    obtain ⟨v, hv, -, hrest⟩ := run_succ_cases rfl (noResetFor_mono hr (by omega)) hrun
    have move := microStep_cases hv
    have hr' : NoResetFor (m + 1) v.tick := noResetFor_tick hr move.keeps_own.2.1
    have hsv := doneCount_le_of_prefix move.hist_grows.1
    have hvt := doneCount_le_of_prefix (hist_prefix_of_run rfl (noResetFor_mono hr' (by omega)) hrest)
    rw [State.tick_hist] at hsv hvt
    rcases move.sending_or_done hidle hfault with ⟨hvi, hvf⟩ | ⟨ok, hok⟩
    · rw [Nat.add_right_comm (m + 1), cycleFrom_of_next _ hidle hfault (sample_rst_of_noResetFor hr) hv]
      exact ih hvi hvf hr' hrest (by omega)
    · rw [hok, doneCount_append, doneCount_done, State.tick_hist] at hvt
      omega

theorem cycleFrom_of_idle (fuel : Nat) {s : State} (h : s.ph = .idle) : cycleFrom fuel s = .next s := by
  cases fuel <;> simp [cycleFrom, h]

/-- The rest of TRANSMIT from the first phase of a cycle on, when the peripheral answers `w` edges after the `Send`. -/
theorem cycleFrom_hdr1_to_idle {w : Nat} {s : State} {ok : Bool} (fuel : Nat) (hc : s.cfg.WellFormed) (hp : s.ph = .hdr1)
    (hr : NoResetFor (9 * s.cfg.n + w + 1) s.tick)
    (hw : ∀ x ∈ (s.tick.inputs.drop (9 * s.cfg.n)).take w, answerOf x = none)
    (ha : answerOf ((s.tick.inputs.drop (9 * s.cfg.n + w)).headD .low) = some ok) :
    cycleFrom (9 * s.cfg.n + w + 1 + fuel) s =
      .next (((s.tick.later (9 * s.cfg.n + w) .wait 1 (crcOf s.cfg) (frame s.cfg)).sendOff.complete ok).goto .idle) := by
  have hrun := run_hdr1_to_wait (s := s.tick) hc rfl hp (noResetFor_mono hr (Nat.le_succ _)) hw
  have hdone : doneCount (s.tick.later (9 * s.cfg.n + w) .wait 1 (crcOf s.cfg) (frame s.cfg)).sendOff.hist =
      doneCount s.hist := by
    simp [State.later, doneCount_append, doneCount_appends, doneCount_send]
  have hend := cycleFrom_of_run (fuel := fuel) (by simp [hp]) (by simp [hp]) hr hrun hdone (microStep_of_answer rfl ha)
  exact hend.trans (cycleFrom_of_idle fuel rfl)

/-- Settles O28: the run of the micro-steps up to the answer completes no cycle, and the answer does. -/
theorem transmitIsOneSendCycle : Obligations.TransmitIsOneSendCycle := by
  intro s build waits rest a ok hc hidle _ hin hlen hb hw har hans
  obtain ⟨x, build, rfl⟩ := List.exists_cons_of_length_eq_add_one hlen
  have hlen : build.length = 9 * s.cfg.n := by simpa using hlen
  have htail : s.inputs.tail = build ++ (waits ++ a :: rest) := by rw [hin]; simp
  have hdrop : s.inputs.tail.drop (9 * s.cfg.n) = waits ++ a :: rest := by rw [htail, ← hlen, List.drop_left]
  have hdrop' : s.inputs.tail.drop (9 * s.cfg.n + waits.length) = a :: rest := by
    rw [← List.drop_drop, hdrop, List.drop_left]
  have hr : NoResetFor (9 * s.cfg.n + waits.length + 1) (State.tick { s with seq := [], ph := .hdr1 }) := by
    refine noResetFor_of_append (l := build ++ waits ++ [a]) (rest := rest) (by simp [htail]) ?_ (by simp [hlen, Nat.add_assoc])
    simp only [List.forall_mem_append, List.forall_mem_singleton]
    exact ⟨⟨(List.forall_mem_cons.mp hb).2, fun y hy => (hw y hy).1⟩, har⟩
  have hfuel : 9 * s.cfg.n + s.inputs.length + 1 =
      9 * s.cfg.n + waits.length + 1 + (9 * s.cfg.n + 2 + rest.length) := by
    simp [hin, hlen]
    omega
  have hnone : ∀ y ∈ (s.inputs.tail.drop (9 * s.cfg.n)).take waits.length, answerOf y = none := by
    rw [hdrop, List.take_left]
    exact fun y hy => (hw y hy).2
  have hsome : answerOf ((s.inputs.tail.drop (9 * s.cfg.n + waits.length)).headD .low) = some ok := by
    rw [hdrop']
    exact hans
  rw [exec_transmit_of_ok hidle (rangesOk_of_wellFormed hc), hfuel]
  refine (cycleFrom_hdr1_to_idle (s := { s with seq := [], ph := .hdr1 }) _ hc rfl hr hnone hsome).trans ?_
  simp [State.later, State.sendOff, State.complete, State.goto, hdrop']
  omega

end Sys2Proof.Machine

/-! SUPPORT. The phases of the sequencer at one edge (O9, O10, O12 to O15) and the answer of a failed send (O41): each clause is
a case of the phase's rule. -/

namespace Sys2Proof.Machine

/-! ### The phases that append a constant symbol, and the `Send` -/

/-- With R27's table the pair of a kind is appended at the position that was the length of `SEQ`. -/
theorem append_seq_at_length {s : State} {n : Nat} (ht : s.cfg.symtab = refSymtab) (k : Kind) (hlen : s.seq.length = n) :
    (s.append k).seq.length = n + 1 ∧ (s.append k).seq[n]? = some (symbolOf refSymtab k) := by
  simp [append_of_refSymtab ht, ← hlen]

theorem append_seq_of_empty {s : State} (ht : s.cfg.symtab = refSymtab) (k : Kind) (hseq : s.seq = []) :
    (s.append k).seq = [symbolOf refSymtab k] := by
  simp [append_of_refSymtab ht, hseq]

/-- Settles O9: each of the three is an append and a move; with R27's table its pair stands at the end of `SEQ`. -/
theorem constantSymbolPhases : Obligations.ConstantSymbolPhases := by
  refine ⟨fun s => ⟨rfl, rfl, rfl⟩, fun s t ht => ⟨fun hseq h => ?_, fun hlen h => ?_, fun hlen h => ?_⟩⟩
  · cases h
    exact append_seq_of_empty ht .header hseq
  · cases h
    exact append_seq_at_length ht .pause hlen
  · cases h
    exact append_seq_at_length ht .header hlen

/-- Settles O10: the End is appended, the `Send` is issued, and both rows move on. -/
theorem endAndSendPhases : Obligations.EndAndSendPhases := fun _ => ⟨rfl, rfl⟩

/-! ### The checksum phase -/

/-- Settles O12: the exit, the byte that is there, the byte that is not. -/
theorem sumPhaseAddsOneByte : Obligations.SumPhaseAddsOneByte := by
  refine fun s => ⟨execPhSum_exit, fun b hne hb => ?_, execPhSum_absent⟩
  rw [byte_ofNat_mod]
  exact execPhSum_byte hne hb

/-! ### The phases that look at an input -/

/-- Settles O13: without the event the hold, with it the cycle start, whose range check decides. -/
theorem idlePhaseStartsOrFailsFast : Obligations.IdlePhaseStartsOrFailsFast := by
  refine fun s => ⟨execPhIdle_hold, fun hc h8 hn h31 => ?_, fun hc hbad => ?_⟩
  · rw [← startCycle_of_ok ((rangesOk_iff s.cfg).mpr ⟨h8, hn, h31⟩)]
    exact execPhIdle_start hc
  · have hok : rangesOk s.cfg = false := Bool.eq_false_of_not_eq_true (mt (rangesOk_iff s.cfg).mp hbad)
    refine (execPhIdle_start hc).trans ?_
    rw [startCycle_of_not_ok hok]
    rfl

theorem answerOf_of_done {x : Sample} (hd : x.txDone = true) : answerOf x = some true := if_pos hd

theorem answerOf_of_fail {x : Sample} (hd : x.txDone = false) (hf : x.txFail = true) : answerOf x = some false := by
  simp [answerOf, hd, hf]

theorem answerOf_of_low {x : Sample} (hd : x.txDone = false) (hf : x.txFail = false) : answerOf x = none := by
  simp [answerOf, hd, hf]

/-- Settles O14: by the peripheral's answer, in which `tx_done` comes first. -/
theorem waitPhaseHoldsOrCompletes : Obligations.WaitPhaseHoldsOrCompletes := fun _ =>
  ⟨fun hd hf => execPhWait_hold (answerOf_of_low hd hf), fun hd => execPhWait_answer (answerOf_of_done hd),
    fun hd hf => execPhWait_answer (answerOf_of_fail hd hf)⟩

/-- Settles O15: the row keeps the state, and in the stop the multiplexer selects nothing and `ST` is not SENDING. -/
theorem faultPhaseKeepsEverything : Obligations.FaultPhaseKeepsEverything := by
  refine fun s => ⟨rfl, fun hp => ?_⟩
  have hmux : mux s = none := by simp only [mux, hp]
  have hst : s.st = none := by simp only [State.st, hp]
  simp [ports, hmux, hst, hp]

/-- Settles O41: the answer goes into the `Done` alone. -/
theorem failedSendDiffersOnlyInItsDone : Obligations.FailedSendDiffersOnlyInItsDone := by
  intro s x rest hi hr hp
  exact ⟨(((s.sees x rest).complete true).goto .idle).tick,
    step_of_answer (s := s.sees { x with txDone := true, txFail := false } rest) hi hp hr rfl,
    step_of_answer (s := s.sees { x with txDone := false, txFail := true } rest) hi hp hr rfl, rfl, rfl, rfl⟩

end Sys2Proof.Machine

/-! SUPPORT. No stop in a well-formed configuration: the used ranges are legal (O37), and on R37's table every byte a phase
reads exists, so that every phase has its move (O35). What TRANSMIT does where it starts no cycle (O29). -/

namespace Sys2Proof.Machine

open Sys2Proof.Safety

/-! ### The ranges of a well-formed configuration -/

/-- Settles O37: `8 <= N-1 <= len(PAYLOAD)`, and one byte is a range of length 1. -/
theorem wellFormedConfigurationPassesTheCheck : Obligations.WellFormedConfigurationPassesTheCheck := by
  intro c b hc
  have hok := rangesOk_of_wellFormed hc
  obtain ⟨h8, hn, -⟩ := (rangesOk_iff c).mp hok
  have hlen : c.n - 1 ≤ c.payload.length := (Nat.sub_le c.n 1).trans hn
  exact ⟨hok, ⟨_, encodeRange_of_range _ (Nat.zero_le 8) (h8.trans hlen)⟩, ⟨_, encodeRange_of_range _ h8 hlen⟩,
    ⟨_, computeChecksum_of_range h8 hlen⟩, ⟨_, encodeRange_of_range _ (Nat.zero_le 1) le_rfl⟩⟩

/-! ### The next state on R37's table -/

/-- On the table the phases that read the payload store stand at an index below `N`, so the byte is there (R53, R156). -/
theorem exists_payloadRead_of_position {s : State} (hc : s.cfg.WellFormed) (hp : Position s)
    (h : s.ph = .f1 ∨ s.ph = .f2 ∨ s.ph = .sum) : ∃ b, payloadRead s.cfg s.bi.toNat = some b := by
  obtain ⟨-, h9, -, hlen, -⟩ := hc
  have hbi : s.bi.toNat < s.cfg.n := by
    rcases h with h | h | h <;> simp only [Position, h] at hp <;> omega
  obtain ⟨b, hb, -⟩ := payloadRead_some hlen hbi
  exact ⟨b, hb⟩

/-- On the table every phase has a move; in `PH_IDLE` and `PH_WAIT` it is the hold when no event comes (log entry 1). -/
theorem exists_move_of_position {s : State} (hc : s.cfg.WellFormed) (hp : Position s) : ∃ u, MicroMove s u := by
  have hbyte := exists_payloadRead_of_position hc hp
  cases h : s.ph with
  | idle =>
    cases hstart : s.sample.cycleStart with
    | true => exact ⟨_, .idleStart h hstart (rangesOk_of_wellFormed hc)⟩
    | false => exact ⟨_, .idleHold h hstart⟩
  | hdr1 => exact ⟨_, .hdr1 h⟩
  | f1 =>
    obtain ⟨b, hb⟩ := hbyte (.inl h)
    by_cases e : s.bi.toNat = 8
    · exact ⟨_, .f1Exit h e⟩
    · exact ⟨_, .f1Bit h e b hb⟩
  | pause => exact ⟨_, .pause h⟩
  | hdr2 => exact ⟨_, .hdr2 h⟩
  | f2 =>
    obtain ⟨b, hb⟩ := hbyte (.inr (.inl h))
    by_cases e : s.bi.toNat = s.cfg.n - 1
    · exact ⟨_, .f2Exit h e⟩
    · exact ⟨_, .f2Bit h e b hb⟩
  | sum =>
    obtain ⟨b, hb⟩ := hbyte (.inr (.inr h))
    by_cases e : s.bi.toNat = s.cfg.n - 1
    · exact ⟨_, .sumExit h e⟩
    · exact ⟨_, .sumByte h e b hb⟩
  | crc =>
    simp only [Position, h] at hp
    obtain ⟨hbi, -⟩ := hp
    rcases Nat.le_one_iff_eq_zero_or_eq_one.mp hbi with e | e
    · exact ⟨_, .crcBit h e⟩
    · exact ⟨_, .crcExit h e⟩
  | endPhase => exact ⟨_, .endPhase h⟩
  | send => exact ⟨_, .send h⟩
  | wait =>
    cases hans : answerOf s.sample with
    | some ok => exact ⟨_, .waitDone h ok hans⟩
    | none => exact ⟨_, .waitHold h hans⟩
  | fault => exact ⟨_, .fault h⟩

/-- Settles O35: a reset has its next state in every phase, and a hardware edge that of its phase's move. -/
theorem onTrackNeverStops : Obligations.OnTrackNeverStops := by
  intro s hs
  cases hr : s.sample.rst with
  | true => exact ⟨_, step_of_reset hr⟩
  | false =>
    obtain ⟨u, m⟩ := exists_move_of_position hs.config hs.position
    exact ⟨u.tick, by rw [step_of_hardware hr hs.noIssue, m.microStep_eq, afterEdge_next]⟩

/-! ### TRANSMIT without a cycle -/

theorem exec_transmit_of_not_idle {s : State} (h : s.ph ≠ .idle) : exec .transmit s = .next s := if_neg h

/-- In the stop nothing of a cycle is left to run (R136). -/
theorem cycleFrom_of_fault (fuel : Nat) {s : State} (h : s.ph = .fault) : cycleFrom fuel s = .next s := by
  cases fuel <;> simp [cycleFrom, h]

/-- Settles O29: no cycle start is taken outside `PH_IDLE`, and a failing range check leads straight to the stop. -/
theorem transmitElsewhereOrIllFormed : Obligations.TransmitElsewhereOrIllFormed := by
  refine ⟨fun s => exec_transmit_of_not_idle, fun s hidle hbad => ?_⟩
  have hok : rangesOk s.cfg = false := Bool.eq_false_of_not_eq_true (mt (rangesOk_iff s.cfg).mp hbad)
  rw [exec_transmit_of_idle hidle, startCycle_of_not_ok hok]
  exact cycleFrom_of_fault _ rfl

end Sys2Proof.Machine

/-! SUPPORT. How long the frame lasts (O24). Counts and tick sums do not depend on the order of the symbols, so the frame is
replaced by a rearrangement of it in which the data symbols stand sorted. -/

namespace Sys2Proof.Machine

/-! ### The ticks of a stream -/

theorem ticksAt_marks (l : List TimedSymbol) : ticksAt true l = (l.map (·.mark)).sum := by
  induction l with
  | nil => rfl
  | cons x l ih => simpa [ticksAt, waveform] using ih

theorem ticksAt_spaces (l : List TimedSymbol) : ticksAt false l = (l.map (·.space)).sum := by
  induction l with
  | nil => rfl
  | cons x l ih => simpa [ticksAt, waveform] using ih

theorem airTicks_eq_marks_add_spaces (l : List TimedSymbol) : airTicks l = ticksAt true l + ticksAt false l := by
  rw [ticksAt_marks, ticksAt_spaces, ← List.sum_map_add]
  rfl

theorem airTicks_perm {l m : List TimedSymbol} (h : l.Perm m) : airTicks l = airTicks m :=
  (h.map ticksOf).sum_eq

theorem ticksAt_perm {l m : List TimedSymbol} (active : Bool) (h : l.Perm m) : ticksAt active l = ticksAt active m :=
  (((h.flatMap_right _).filter _).map _).sum_eq

/-! ### The symbols of the frame, sorted -/

/-- The bytes a transmission carries: the payload up to its reserved slot, then the checksum. -/
def sentBytes (c : Config) : List Byte := slice c.payload 0 c.bodyEnd ++ [crcOf c]

theorem sentBytes_length {c : Config} (hc : c.WellFormed) : (sentBytes c).length = c.n := by
  obtain ⟨-, h9, -, hlen, -⟩ := hc
  rw [sentBytes, List.length_append, slice_length (by unfold Config.bodyEnd; omega), List.length_singleton]
  unfold Config.bodyEnd
  omega

/-- The four symbols of a frame that are no data, then its data symbols in order. -/
theorem frame_perm_encodeBytes {c : Config} (hc : c.WellFormed) :
    (frame c).Perm ([c.symtab.header, c.symtab.header, c.symtab.pause, c.symtab.endSymbol] ++
      encodeBytes c.symtab (sentBytes c)) := by
  obtain ⟨-, h9, -, hlen, -⟩ := hc
  have hslice : slice c.payload 0 c.bodyEnd =
      slice c.payload 0 Config.f1Len ++ slice c.payload Config.bodyStart c.bodyEnd :=
    slice_append (Nat.zero_le _) (by unfold Config.bodyEnd Config.f1Len; omega) (by unfold Config.bodyEnd; omega)
  rw [List.perm_iff_count]
  intro x
  simp only [frame, sentBytes, hslice, encodeBytes_append, List.count_append, List.count_cons, List.count_nil]
  omega

/-- Encoded bytes are some ZeroBits and some OneBits, in some order. -/
theorem encodeBytes_perm_replicate {t : SymTab} (ht : t.zeroBit ≠ t.oneBit) (l : List Byte) :
    ∃ z o, z + o = 8 * l.length ∧
      (encodeBytes t l).Perm (List.replicate z t.zeroBit ++ List.replicate o t.oneBit) := by
  have hsub : encodeBytes t l ⊆ [t.zeroBit, t.oneBit] := fun x hx => by
    simpa using eq_zeroBit_or_oneBit_of_mem_encodeBytes hx
  have hperm := (List.perm_replicate_append_replicate ht).mpr ⟨rfl, rfl, hsub⟩
  exact ⟨_, _, by simpa using hperm.length_eq.symm, hperm⟩

/-- The symbols of a frame with `z` ZeroBits and `o` OneBits, by kind. -/
def sortedFrame (z o : Nat) : List TimedSymbol :=
  [⟨3468, 1767⟩, ⟨3468, 1767⟩, ⟨432, 10000⟩, ⟨432, 0⟩] ++ (List.replicate z ⟨432, 432⟩ ++ List.replicate o ⟨432, 1296⟩)

theorem frame_perm_sortedFrame {c : Config} (hc : c.WellFormed) :
    ∃ z o, z + o = 8 * c.n ∧ (frame c).Perm (sortedFrame z o) := by
  have hframe := frame_perm_encodeBytes hc
  have hlen := sentBytes_length hc
  obtain ⟨-, -, -, -, ht⟩ := hc
  rw [ht] at hframe
  obtain ⟨z, o, hzo, hdata⟩ := encodeBytes_perm_replicate (t := refSymtab) (by decide) (sentBytes c)
  exact ⟨z, o, hlen ▸ hzo, hframe.trans (hdata.append_left _)⟩

theorem sortedFrame_count (z o : Nat) (x : TimedSymbol) : (sortedFrame z o).count x =
    [⟨3468, 1767⟩, ⟨3468, 1767⟩, ⟨432, 10000⟩, ⟨432, 0⟩].count x +
      ((if (⟨432, 432⟩ : TimedSymbol) == x then z else 0) + if (⟨432, 1296⟩ : TimedSymbol) == x then o else 0) := by
  simp only [sortedFrame, List.count_append, List.count_replicate]

theorem airTicks_sortedFrame (z o : Nat) : airTicks (sortedFrame z o) = 21334 + 864 * z + 1728 * o := by
  simp [airTicks, sortedFrame, ticksOf]
  omega

theorem marks_sortedFrame (z o : Nat) : ticksAt true (sortedFrame z o) = 2 * 3468 + 432 * (z + o + 2) := by
  simp [ticksAt_marks, sortedFrame]
  omega

/-- Settles O24: each count and each sum is that of the sorted frame. -/
theorem frameLastsItsTicks : Obligations.FrameLastsItsTicks := by
  intro c hc
  obtain ⟨z, o, hzo, hperm⟩ := frame_perm_sortedFrame hc
  have hcount (x : TimedSymbol) := (hperm.count_eq x).trans (sortedFrame_count z o x)
  have hzero : (frame c).count ⟨432, 432⟩ = z := by simp [hcount]
  have hone : (frame c).count ⟨432, 1296⟩ = o := by simp [hcount]
  refine ⟨by rw [hzero, hone, hzo], by simp [hcount], by simp [hcount], by simp [hcount], ?_,
    airTicks_eq_marks_add_spaces _, ?_⟩
  · rw [airTicks_perm hperm, airTicks_sortedFrame, hzero, hone]
  · rw [ticksAt_perm true hperm, marks_sortedFrame, hzo]

end Sys2Proof.Machine
